-- ==== Sys2Proof/Word.lean ====
section
/-! DEFINITION. The two widths the block computes with: bytes and 32-bit words (00_scope.md R7). -/

namespace Sys2Proof

/-- A byte: 8 bits, unsigned (R7). -/
abbrev Byte := BitVec 8

/-- A word of the Hash Engine and of the Stream Cipher: 32 bits, unsigned (R5, R7). Addition of words is
modulo 2^32 (R8), which is `BitVec` addition. -/
abbrev Word := BitVec 32

end Sys2Proof
end

