-- ==== Sys2Proof/Config.lean ====
section
/-! DEFINITION. What the implementation fixes: the parameters of 00_scope.md R5 and R6. The spec leaves no value
open (93_implementation_defined.md, end of section 1), so there is no free value here. The one open parameter,
PORT_BINDING (92_eei_decisions.md D2), is physical and has no counterpart in the model. -/

namespace Sys2Proof.Config

/-- Largest payload of one command: the `LEN` field has 16 bits (R6). -/
abbrev maxPayload : Nat := 65535

/-- The hash block size of the authenticator: a longer key is hashed first (R5, R161). -/
abbrev macBlockBytes : Nat := 64

/-- A buffer holding this many bytes or more has no room for the length after the padding byte (R5, R108,
90_conflicts.md C2). -/
abbrev padThreshold : Nat := 56

/-- The padding byte: a single 1 bit, most significant bit first (R43 (d), R100). -/
abbrev padByte : Byte := 0x80

/-- The inner constant of HMAC (R5, R160). -/
abbrev innerPad : Byte := 0x36

/-- The outer constant of HMAC (R5, R160). -/
abbrev outerPad : Byte := 0x5C

/-- 20 rounds are 10 iterations of a column pass and a diagonal pass (R5, R130). -/
abbrev doubleRounds : Nat := 10

end Sys2Proof.Config
end

