-- ==== Sys2Proof/Syntax.lean ====
section
/-! DEFINITION. The commands of the block, one constructor per row of spec/opcode_table.json (30_encoding.md R66).

A command is a header and a payload (R60). The opcode byte alone selects the command; the `rsv` byte and the
length are checked after the selection (R63, R66), and a command with a wrong one is answered with an error status
by that command (60_exceptions.md R200, R201). So every constructor carries the `rsv` byte and the payload as they
arrived; `LEN` is the payload's length (DEDUCED, safe, assumption log entry 2; payloads
above 65535 bytes: DESIGN CHOICE, safe, entry 5). -/

namespace Sys2Proof

/-- A command as selected by its opcode byte: its `rsv` byte and its payload. -/
inductive Instr where
  /-- `SHA_INIT`, opcode 0x01 (R110). -/
  | shaInit (rsv : Byte) (payload : List Byte)
  /-- `SHA_UPDATE`, opcode 0x02 (R111). -/
  | shaUpdate (rsv : Byte) (payload : List Byte)
  /-- `SHA_FINAL`, opcode 0x03 (R112). -/
  | shaFinal (rsv : Byte) (payload : List Byte)
  /-- `CC_SETKEY`, opcode 0x10 (R140). -/
  | ccSetkey (rsv : Byte) (payload : List Byte)
  /-- `CC_SETNONCE`, opcode 0x11 (R141). -/
  | ccSetnonce (rsv : Byte) (payload : List Byte)
  /-- `CC_BLOCK`, opcode 0x12 (R142). -/
  | ccBlock (rsv : Byte) (payload : List Byte)
  /-- `CC_CRYPT`, opcode 0x13 (R143). -/
  | ccCrypt (rsv : Byte) (payload : List Byte)
  /-- `MA_SETKEY`, opcode 0x20 (R170). -/
  | maSetkey (rsv : Byte) (payload : List Byte)
  /-- `MA_INIT`, opcode 0x21 (R171). -/
  | maInit (rsv : Byte) (payload : List Byte)
  /-- `MA_UPDATE`, opcode 0x22 (R172). -/
  | maUpdate (rsv : Byte) (payload : List Byte)
  /-- `MA_FINAL`, opcode 0x23 (R173). -/
  | maFinal (rsv : Byte) (payload : List Byte)
  /-- `MA_FINALX`, opcode 0x24 (R174). -/
  | maFinalx (rsv : Byte) (payload : List Byte)
  /-- `MA_VERIFY`, opcode 0x25 (R175). -/
  | maVerify (rsv : Byte) (payload : List Byte)
  /-- `RDSTAT`, opcode 0x30 (R190). -/
  | rdstat (rsv : Byte) (payload : List Byte)
  deriving DecidableEq, Repr

/-- The `rsv` byte of the header (R61). -/
def Instr.rsv : Instr → Byte
  | .shaInit r _ => r
  | .shaUpdate r _ => r
  | .shaFinal r _ => r
  | .ccSetkey r _ => r
  | .ccSetnonce r _ => r
  | .ccBlock r _ => r
  | .ccCrypt r _ => r
  | .maSetkey r _ => r
  | .maInit r _ => r
  | .maUpdate r _ => r
  | .maFinal r _ => r
  | .maFinalx r _ => r
  | .maVerify r _ => r
  | .rdstat r _ => r

/-- The payload `P` (R8). -/
def Instr.payload : Instr → List Byte
  | .shaInit _ p => p
  | .shaUpdate _ p => p
  | .shaFinal _ p => p
  | .ccSetkey _ p => p
  | .ccSetnonce _ p => p
  | .ccBlock _ p => p
  | .ccCrypt _ p => p
  | .maSetkey _ p => p
  | .maInit _ p => p
  | .maUpdate _ p => p
  | .maFinal _ p => p
  | .maFinalx _ p => p
  | .maVerify _ p => p
  | .rdstat _ p => p

/-- `LEN`: the payload's length in bytes (R61). -/
def Instr.len (i : Instr) : Nat := i.payload.length

end Sys2Proof
end

