-- ==== Sys2Proof/WellFormed.lean ====
section
/-! DEFINITION. Which commands the format can carry and which the spec calls well formed (30_encoding.md R60, R67,
R69). The meanings make their own header checks (Machine/Flags.lean); this file says, of the command as written,
which of them it passes. -/

namespace Sys2Proof

/-- The legal values of `LEN` per command (the table of R67). Every length up to the field's range is legal where
the table says 0 to 65535. -/
def Instr.legalLen : Instr → Bool
  | .shaInit _ p => p.length == 0
  | .shaUpdate _ _ => true
  | .shaFinal _ p => p.length == 0
  | .ccSetkey _ p => p.length == 32
  | .ccSetnonce _ p => p.length == 12
  | .ccBlock _ p => p.length == 4
  | .ccCrypt _ _ => true
  | .maSetkey _ _ => true
  | .maInit _ p => p.length == 0
  | .maUpdate _ _ => true
  | .maFinal _ p => p.length == 0
  | .maFinalx _ p => p.length == 0
  | .maVerify _ _ => true
  | .rdstat _ p => p.length == 0

/-- The payload fits in the 16-bit `LEN` field, so the format can carry the command (R60). -/
def Instr.encodable (i : Instr) : Bool := decide (i.len ≤ Config.maxPayload)

/-- A command that passes every header check: the `rsv` byte is 0x00 (R69), `LEN` is legal for it (R67), and the
format can carry it (R60). -/
def Instr.wellFormed (i : Instr) : Bool := i.rsv == 0 && i.legalLen && i.encodable

end Sys2Proof
end

