-- ==== Sys2Proof/Decode.lean ====
section
/-! DEFINITION. Framing, decoding and encoding of commands (30_encoding.md R60 to R71). Decoding is total: any byte
string is an incomplete command, a command with an illegal opcode, or a command of the table followed by the rest
of the stream. -/

namespace Sys2Proof

/-- `BE16(b0, b1)` (R8). -/
def be16 (b0 b1 : Byte) : Nat := b0.toNat * 256 + b1.toNat

/-- `ToBE16(n)`, most significant byte first (R8). -/
def toBE16 (n : Nat) : List Byte := [BitVec.ofNat 8 (n / 256), BitVec.ofNat 8 n]

/-! ## The opcode values (R66) -/

def opShaInit : Byte := 0x01
def opShaUpdate : Byte := 0x02
def opShaFinal : Byte := 0x03
def opCcSetkey : Byte := 0x10
def opCcSetnonce : Byte := 0x11
def opCcBlock : Byte := 0x12
def opCcCrypt : Byte := 0x13
def opMaSetkey : Byte := 0x20
def opMaInit : Byte := 0x21
def opMaUpdate : Byte := 0x22
def opMaFinal : Byte := 0x23
def opMaFinalx : Byte := 0x24
def opMaVerify : Byte := 0x25
def opRdstat : Byte := 0x30

/-- The opcode byte of a command (R66). -/
def Instr.opcode : Instr → Byte
  | .shaInit _ _ => opShaInit
  | .shaUpdate _ _ => opShaUpdate
  | .shaFinal _ _ => opShaFinal
  | .ccSetkey _ _ => opCcSetkey
  | .ccSetnonce _ _ => opCcSetnonce
  | .ccBlock _ _ => opCcBlock
  | .ccCrypt _ _ => opCcCrypt
  | .maSetkey _ _ => opMaSetkey
  | .maInit _ _ => opMaInit
  | .maUpdate _ _ => opMaUpdate
  | .maFinal _ _ => opMaFinal
  | .maFinalx _ _ => opMaFinalx
  | .maVerify _ _ => opMaVerify
  | .rdstat _ _ => opRdstat

/-- The opcode map: each row's opcode byte (the row's match under its mask 0xFF000000) and its command (R66). -/
def opcodeTable : List (Byte × (Byte → List Byte → Instr)) :=
  [ (opShaInit, .shaInit), (opShaUpdate, .shaUpdate), (opShaFinal, .shaFinal),
    (opCcSetkey, .ccSetkey), (opCcSetnonce, .ccSetnonce), (opCcBlock, .ccBlock), (opCcCrypt, .ccCrypt),
    (opMaSetkey, .maSetkey), (opMaInit, .maInit), (opMaUpdate, .maUpdate), (opMaFinal, .maFinal),
    (opMaFinalx, .maFinalx), (opMaVerify, .maVerify), (opRdstat, .rdstat) ]

/-- Selection by the opcode byte alone (R63 check (1), R66): `none` for an illegal opcode (R68). -/
def selectCommand (opcode rsv : Byte) (payload : List Byte) : Option Instr :=
  (opcodeTable.find? (fun row => row.1 == opcode)).map (fun row => row.2 rsv payload)

/-- One command cut from the front of a stream: its header fields, its payload and what follows it. -/
structure Frame where
  opcode : Byte
  rsv : Byte
  payload : List Byte
  rest : List Byte
  deriving DecidableEq, Repr

/-- Framing (R61, R62, R71): the header is four bytes, `LEN` is its last two read big-endian, the payload is the
next `LEN` bytes, whatever the opcode. `none` while fewer than `4 + LEN` bytes are present (R57). -/
def frameCommand : List Byte → Option Frame
  | b0 :: b1 :: b2 :: b3 :: more =>
    if more.length < be16 b2 b3 then none
    else some { opcode := b0, rsv := b1, payload := more.take (be16 b2 b3), rest := more.drop (be16 b2 b3) }
  | _ => none

/-- What stands at the front of a command stream. -/
inductive Decoded where
  /-- Fewer than `4 + LEN` bytes: no whole command yet (R57). -/
  | incomplete
  /-- A whole command whose opcode is none of the 14 (R68): its opcode byte and the stream after it. -/
  | illegalOpcode (opcode : Byte) (rest : List Byte)
  /-- A whole command of the table and the stream after it. -/
  | command (i : Instr) (rest : List Byte)
  deriving DecidableEq, Repr

/-- The decoder: framing, then selection by opcode (R62, R63). -/
def decode (bs : List Byte) : Decoded :=
  match frameCommand bs with
  | none => .incomplete
  | some f =>
    match selectCommand f.opcode f.rsv f.payload with
    | none => .illegalOpcode f.opcode f.rest
    | some i => .command i f.rest

/-- The encoder: `opcode || rsv || ToBE16(LEN) || payload` (R61, R80). -/
def encode (i : Instr) : List Byte :=
  i.opcode :: i.rsv :: (toBE16 i.len ++ i.payload)

/-! ## Words numbered as spec/opcode_table.json numbers them -/

/-- The bytes of an instruction whose bits are `w`, `nbits` of them given and all others 0: the header word has its
bit 31 in the first byte (R61); the payload's bytes count on from bit 32 and are as many as `LEN` says. -/
def tableBytes (nbits w : Nat) : List Byte :=
  let v := w % 2 ^ nbits
  let b0 := BitVec.ofNat 8 (v >>> 24)
  let b1 := BitVec.ofNat 8 (v >>> 16)
  let b2 := BitVec.ofNat 8 (v >>> 8)
  let b3 := BitVec.ofNat 8 v
  b0 :: b1 :: b2 :: b3 :: (List.range (be16 b2 b3)).map (fun k => BitVec.ofNat 8 (v >>> (32 + 8 * k)))

/-- The command the decoder reads from an instruction whose bits are `w`. -/
def decodeTableWord (nbits w : Nat) : Option Instr :=
  match decode (tableBytes nbits w) with
  | .incomplete => none
  | .illegalOpcode _ _ => none
  | .command i _ => some i

end Sys2Proof
end

