-- ==== Sys2Proof/Machine/State.lean ====
section
/-! DEFINITION. The architectural state of the block, exactly the list of 10_state.md R10, its reset values (R31),
and the reasons a step could stop. -/

namespace Sys2Proof.Machine

/-- `OWNER`: which command group holds the Hash Engine (R15). The encoding 0b11 is never produced, and the type
leaves it out (93_implementation_defined.md U9; DESIGN CHOICE, safe, assumption log entry 3). -/
inductive Owner where
  /-- No hash in progress (0b00). -/
  | none
  /-- A `SHA_INIT` accepted and no `SHA_FINAL` yet (0b01). -/
  | hash
  /-- A `MA_INIT` accepted and no `MA_FINAL` or `MA_FINALX` yet (0b10). -/
  | mac
  deriving DecidableEq, Repr

/-- The status byte's seven names (60_exceptions.md R200). -/
inductive Status where
  /-- The command was accepted and executed. -/
  | ok
  /-- The opcode is not one of the 14. -/
  | errOpcode
  /-- Legal opcode, `rsv` not 0x00. -/
  | errFormat
  /-- Legal opcode, `rsv` 0x00, `LEN` not legal for the opcode. -/
  | errLength
  /-- A key or nonce the command needs has not been loaded since reset. -/
  | errNotInitialized
  /-- The Hash Engine is not held by the command's group, or no tag is valid. -/
  | errSequence
  /-- Absorbing the payload would take `BITLEN` to 2^64 or beyond. -/
  | errOverflow
  deriving DecidableEq, Repr

/-- The Hash Engine's data registers (R11 to R14). -/
structure HashRegs where
  /-- `H[0..7]`, the chaining value (R11). -/
  h : Vector Word 8
  /-- `BUF[0..63]`, the block buffer (R12). -/
  buf : Vector Byte 64
  /-- `BUFLEN`, the number of valid bytes of `BUF`: 0 to 63 between commands (R13; DESIGN CHOICE, safe, assumption
  log entry 3). -/
  bufLen : Fin 64
  /-- `BITLEN`, the bit-length counter (R14). -/
  bitLen : BitVec 64
  deriving DecidableEq, Repr

/-- The whole state of the block (R10). -/
structure State where
  /-- `H`, `BUF`, `BUFLEN`, `BITLEN` (R11 to R14). -/
  he : HashRegs
  /-- `OWNER` (R15). -/
  owner : Owner
  /-- `KEY[0..7]`, the cipher key (R17). -/
  key : Vector Word 8
  /-- `NONCE[0..2]`, the cipher nonce (R18). -/
  nonce : Vector Word 3
  /-- `CKEYV`: a `CC_SETKEY` has been accepted since reset (R19). -/
  ckeyv : Bool
  /-- `NONCEV`: a `CC_SETNONCE` has been accepted since reset (R19). -/
  noncev : Bool
  /-- `K0[0..63]`, the padded MAC key (R20). -/
  k0 : Vector Byte 64
  /-- `MKEYV`: a `MA_SETKEY` has been accepted since reset (R21). -/
  mkeyv : Bool
  /-- `TAG[0..31]`, the last computed tag (R22). -/
  tag : Vector Byte 32
  /-- `TAGV`: `TAG` holds a tag of the present key and stream (R23). -/
  tagv : Bool
  /-- `VOK`: the latest comparison with `TAG` matched (R24). -/
  vok : Bool
  /-- `CMD_IN`, front first (R26, 20_memory.md R41). -/
  cmdIn : List Byte
  /-- `RSP_OUT`, front first (R26, 20_memory.md R42). -/
  rspOut : List Byte
  deriving DecidableEq, Repr

/-- The block has no fault: "no input makes the block halt, lock up, lose framing or enter a state outside"
its own (60_exceptions.md R204, R216). A command that cannot be executed is rejected by a response, which is a next
state. So no constructor is needed (DEDUCED, safe: nothing is lost, assumption log entry 8). -/
inductive Fault where
  deriving DecidableEq, Repr

/-- Why the model could decline an instruction. -/
inductive Refusal where
  /-- Raised only by an arm of `exec` whose instruction has no meaning yet, by its mnemonic. Safe: nothing is
  claimed of it. No arm of this model raises it. -/
  | notModelled (mnemonic : String)
  deriving DecidableEq, Repr

/-- The reset state, the table of R31: every register zero, every flag 0, `OWNER = NONE`, both streams empty
(70_reset_and_hazards.md R231, R232; assumption log entry 16). -/
def State.reset : State where
  he := { h := Vector.replicate 8 0, buf := Vector.replicate 64 0, bufLen := 0, bitLen := 0 }
  owner := .none
  key := Vector.replicate 8 0
  nonce := Vector.replicate 3 0
  ckeyv := false
  noncev := false
  k0 := Vector.replicate 64 0
  mkeyv := false
  tag := Vector.replicate 32 0
  tagv := false
  vok := false
  cmdIn := []
  rspOut := []

end Sys2Proof.Machine
end

