-- ==== Sys2Proof/Machine/Flags.lean ====
section
/-! DEFINITION. The flags and the status register (10_state.md R25, R28), the status codes (60_exceptions.md R200), and
the checks a command makes before it writes anything (R201, R202). -/

namespace Sys2Proof.Machine

/-- The response's status byte (R200). -/
def Status.code : Status → Byte
  | .ok => 0x00
  | .errOpcode => 0x01
  | .errFormat => 0x02
  | .errLength => 0x03
  | .errNotInitialized => 0x04
  | .errSequence => 0x05
  | .errOverflow => 0x06

/-- The encoding of `OWNER` (R15). -/
def Owner.code : Owner → BitVec 2
  | .none => 0b00
  | .hash => 0b01
  | .mac => 0b10

/-- `STATUS`: bit 7 is 0, then `VOK`, `TAGV`, `MKEYV`, `NONCEV`, `CKEYV`, and `OWNER` in bits 1:0 (R25). -/
def statusByte (s : State) : Byte :=
  0#1 ++ BitVec.ofBool s.vok ++ BitVec.ofBool s.tagv ++ BitVec.ofBool s.mkeyv ++ BitVec.ofBool s.noncev
    ++ BitVec.ofBool s.ckeyv ++ s.owner.code

/-! ## The checks (R201). Each answers the status it raises, or nothing. -/

/-- `ERR_FORMAT`: the `rsv` byte is not 0x00 (R69). -/
def formatError (rsv : Byte) : Option Status := if rsv = 0 then none else some .errFormat

/-- `ERR_LENGTH` on a command whose only legal `LEN` is `n` (R67). -/
def lengthError (p : List Byte) (n : Nat) : Option Status := if p.length = n then none else some .errLength

/-- `ERR_NOT_INITIALIZED` of `CC_BLOCK` and `CC_CRYPT`: the key or the nonce has not been loaded (R19). -/
def cipherInitError (s : State) : Option Status :=
  if s.ckeyv = false ∨ s.noncev = false then some .errNotInitialized else none

/-- `ERR_NOT_INITIALIZED` of `MA_INIT`: the MAC key has not been loaded (R21). -/
def macInitError (s : State) : Option Status := if s.mkeyv = false then some .errNotInitialized else none

/-- `ERR_SEQUENCE` of a command that needs the Hash Engine held by its own group (R111, R112, R172, R173). -/
def ownerError (s : State) (o : Owner) : Option Status := if s.owner = o then none else some .errSequence

/-- `ERR_SEQUENCE` of `MA_VERIFY`: no tag is valid (R23). -/
def tagError (s : State) : Option Status := if s.tagv = false then some .errSequence else none

/-- `ERR_OVERFLOW`: absorbing the payload would take `BITLEN` to 2^64 or beyond (R14, R111, R172). -/
def overflowError (s : State) (p : List Byte) : Option Status :=
  if s.he.bitLen.toNat + 8 * p.length ≥ 2 ^ 64 then some .errOverflow else none

/-- The first failing check decides (R63, R202). -/
def firstError : List (Option Status) → Option Status
  | [] => none
  | none :: rest => firstError rest
  | some e :: _ => some e

end Sys2Proof.Machine
end

