-- ==== Sys2Proof/Machine/Operands.lean ====
section
/-! DEFINITION. The operand forms: how payload bytes become words and registers, how words become response bytes,
and the text forms of a tag (20_memory.md R43 to R47, 30_encoding.md R72, 42_authenticator.md R161, R163, R164). -/

namespace Sys2Proof.Machine

/-! ## Bytes and words -/

/-- `BE32`: the first byte is most significant (R8). -/
def be32 (b0 b1 b2 b3 : Byte) : Word := b0 ++ b1 ++ b2 ++ b3

/-- `LE32`: the first byte is least significant (R8). -/
def le32 (b0 b1 b2 b3 : Byte) : Word := b3 ++ b2 ++ b1 ++ b0

/-- Byte `j` of `ToBE32(w)`, first byte index 0 (R8). -/
def beByte (w : Word) (j : Nat) : Byte := (w >>> (24 - 8 * j)).setWidth 8

/-- Byte `j` of `ToLE32(w)`, first byte index 0 (R8). -/
def leByte (w : Word) (j : Nat) : Byte := (w >>> (8 * j)).setWidth 8

/-- Byte `j` of `ToBE64(n)`, first byte index 0 (R8). -/
def be64Byte (n : BitVec 64) (j : Nat) : Byte := (n >>> (56 - 8 * j)).setWidth 8

/-- The eight hash words serialised big-endian, `H[0]` first (R43 (b)). -/
def digestBytes (h : Vector Word 8) : Vector Byte 32 :=
  Vector.ofFn fun i => beByte h[i.val / 4] (i.val % 4)

/-- Sixteen words serialised little-endian, word 0 first (R44 (a)). -/
def keystreamBytes (x : Vector Word 16) : Vector Byte 64 :=
  Vector.ofFn fun i => leByte x[i.val / 4] (i.val % 4)

/-! ## Fixed-layout payloads (R72) -/

/-- Payload byte `P[i]`. The meanings read only inside the payload: the length check comes first. -/
def payloadByte (p : List Byte) (i : Nat) : Byte := p.getD i 0

/-- `LE32(P[4i], P[4i+1], P[4i+2], P[4i+3])` (R44 (b), (c), R72). -/
def payloadWord (p : List Byte) (i : Nat) : Word :=
  le32 (payloadByte p (4 * i)) (payloadByte p (4 * i + 1)) (payloadByte p (4 * i + 2)) (payloadByte p (4 * i + 3))

/-- The eight key words of a `CC_SETKEY` payload (R72). -/
def keyOperand (p : List Byte) : Vector Word 8 := Vector.ofFn fun i => payloadWord p i.val

/-- The three nonce words of a `CC_SETNONCE` payload (R72). -/
def nonceOperand (p : List Byte) : Vector Word 3 := Vector.ofFn fun i => payloadWord p i.val

/-- The block counter of a `CC_BLOCK` payload (R72). -/
def counterOperand (p : List Byte) : Word := payloadWord p 0

/-- `s || 0^(64 - len(s))` for a string of at most 64 bytes (R161). -/
def zeroPadded (s : List Byte) : Vector Byte 64 := Vector.ofFn fun i => s.getD i.val 0

/-- The key block XORed with a constant: the inner or the outer pad (R161). -/
def padBlock (k0 : Vector Byte 64) (c : Byte) : List Byte := k0.toList.map (· ^^^ c)

/-! ## The text of a tag -/

/-- The lower-case hexadecimal digit of a value 0 to 15 (R163). -/
def hexDigit (v : Byte) : Byte := if v < 10 then 0x30 + v else 0x61 + (v - 10)

/-- `Hex(s)`: two characters a byte, high nibble first (R163). -/
def hexText (s : List Byte) : List Byte := s.flatMap fun (b : Byte) => [hexDigit (b >>> 4), hexDigit (b &&& 0x0F)]

/-- `Fold(b)`: ASCII upper case to lower case (R164). -/
def foldCase (b : Byte) : Byte := if 0x41 ≤ b ∧ b ≤ 0x5A then b + 0x20 else b

/-- Whether a received text is the tag's text up to letter case, and of its length (R164, R175). -/
def matchesTag (p : List Byte) (tag : Vector Byte 32) : Bool :=
  p.length == 64 && p.map foldCase == hexText tag.toList

end Sys2Proof.Machine
end

