-- ==== Sys2Proof/Machine/Sha256.lean ====
section
/-! DEFINITION. The compression function of the Hash Engine: the constants and functions of 40_hash_engine.md R101 to
R105. The message schedule and the eight working variables are scratch (10_state.md R30), so they are local here. -/

namespace Sys2Proof.Machine

/-- `ROTR(x, n)` for 0 < n < 32 (R8). -/
def rotr (x : Word) (n : Nat) : Word := (x >>> n) ||| (x <<< (32 - n))

/-- `Ch` (R101). -/
def shaCh (x y z : Word) : Word := (x &&& y) ^^^ (~~~x &&& z)

/-- `Maj` (R101). -/
def shaMaj (x y z : Word) : Word := (x &&& y) ^^^ (x &&& z) ^^^ (y &&& z)

/-- `bsig0`, FIPS 180-4 "Sigma 0" (R101). -/
def bsig0 (x : Word) : Word := rotr x 2 ^^^ rotr x 13 ^^^ rotr x 22

/-- `bsig1`, FIPS 180-4 "Sigma 1" (R101). -/
def bsig1 (x : Word) : Word := rotr x 6 ^^^ rotr x 11 ^^^ rotr x 25

/-- `ssig0`, FIPS 180-4 "sigma 0" (R101). -/
def ssig0 (x : Word) : Word := rotr x 7 ^^^ rotr x 18 ^^^ (x >>> 3)

/-- `ssig1`, FIPS 180-4 "sigma 1" (R101). -/
def ssig1 (x : Word) : Word := rotr x 17 ^^^ rotr x 19 ^^^ (x >>> 10)

/-- `IV[0..7]`, the initial hash words (R102). -/
def sha256IV : Vector Word 8 :=
  #v[0x6a09e667, 0xbb67ae85, 0x3c6ef372, 0xa54ff53a, 0x510e527f, 0x9b05688c, 0x1f83d9ab, 0x5be0cd19]

/-- `K[0..63]`, the round constants: sixty-four (R103, 90_conflicts.md C1). -/
def sha256K : List Word :=
  [0x428a2f98, 0x71374491, 0xb5c0fbcf, 0xe9b5dba5, 0x3956c25b, 0x59f111f1, 0x923f82a4, 0xab1c5ed5] ++
  [0xd807aa98, 0x12835b01, 0x243185be, 0x550c7dc3, 0x72be5d74, 0x80deb1fe, 0x9bdc06a7, 0xc19bf174] ++
  [0xe49b69c1, 0xefbe4786, 0x0fc19dc6, 0x240ca1cc, 0x2de92c6f, 0x4a7484aa, 0x5cb0a9dc, 0x76f988da] ++
  [0x983e5152, 0xa831c66d, 0xb00327c8, 0xbf597fc7, 0xc6e00bf3, 0xd5a79147, 0x06ca6351, 0x14292967] ++
  [0x27b70a85, 0x2e1b2138, 0x4d2c6dfc, 0x53380d13, 0x650a7354, 0x766a0abb, 0x81c2c92e, 0x92722c85] ++
  [0xa2bfe8a1, 0xa81a664b, 0xc24b8b70, 0xc76c51a3, 0xd192e819, 0xd6990624, 0xf40e3585, 0x106aa070] ++
  [0x19a4c116, 0x1e376c08, 0x2748774c, 0x34b0bcb5, 0x391c0cb3, 0x4ed8aa4a, 0x5b9cca4f, 0x682e6ff3] ++
  [0x748f82ee, 0x78a5636f, 0x84c87814, 0x8cc70208, 0x90befffa, 0xa4506ceb, 0xbef9a3f7, 0xc67178f2]

/-- `W[0..15]`: the block's words, big-endian (R43 (c), R104). -/
def blockWords (b : Vector Byte 64) : List Word :=
  (Vector.ofFn (n := 16) fun t => be32 b[4 * t.val] b[4 * t.val + 1] b[4 * t.val + 2] b[4 * t.val + 3]).toList

/-- The next `n` words of the schedule after the words `w` (the recurrence of R104, for `t` = the words so far). -/
def extendSchedule : Nat → List Word → List Word
  | 0, w => w
  | n + 1, w =>
    let t := w.length
    extendSchedule n
      (w ++ [ssig1 (w.getD (t - 2) 0) + w.getD (t - 7) 0 + ssig0 (w.getD (t - 15) 0) + w.getD (t - 16) 0])

/-- `W[0..63]` for a block (R104). -/
def messageSchedule (b : Vector Byte 64) : List Word := extendSchedule 48 (blockWords b)

/-- The eight working variables of `Compress` (R105). -/
structure Working where
  a : Word
  b : Word
  c : Word
  d : Word
  e : Word
  f : Word
  g : Word
  h : Word
  deriving DecidableEq, Repr

/-- One round with constant `k` and schedule word `w` (R105). -/
def shaRound (v : Working) (k w : Word) : Working :=
  let t1 := v.h + bsig1 v.e + shaCh v.e v.f v.g + k + w
  let t2 := bsig0 v.a + shaMaj v.a v.b v.c
  { a := t1 + t2, b := v.a, c := v.b, d := v.c, e := v.d + t1, f := v.e, g := v.f, h := v.g }

/-- The rounds in order, one per pair of constant and schedule word (R105). -/
def shaRounds : List (Word × Word) → Working → Working
  | [], v => v
  | (k, w) :: rest, v => shaRounds rest (shaRound v k w)

/-- `Compress(B)` as a function of `H` and the block: the new `H` (R105). Irreducible so that no proof's unification
runs 64 rounds; `unfold` opens it, and the kernel evaluates it. -/
@[irreducible] def compress (h : Vector Word 8) (b : Vector Byte 64) : Vector Word 8 :=
  let v := shaRounds (sha256K.zip (messageSchedule b))
    { a := h[0], b := h[1], c := h[2], d := h[3], e := h[4], f := h[5], g := h[6], h := h[7] }
  #v[h[0] + v.a, h[1] + v.b, h[2] + v.c, h[3] + v.d, h[4] + v.e, h[5] + v.f, h[6] + v.g, h[7] + v.h]

end Sys2Proof.Machine
end

