-- ==== Sys2Proof/Machine/Ops.lean ====
section
/-! DEFINITION. The named operations over the state: the streams and the response (20_memory.md R41, R42, 30_encoding.md
R64), rejection (60_exceptions.md R203), the Hash Engine's micro-operations (40_hash_engine.md R106 to R109) and the
register writes of the command rules. -/

namespace Sys2Proof.Machine

/-! ## Streams, responses, rejection -/

/-- What stands at the front of `CMD_IN` (R27, R41). -/
def State.fetch (s : State) : Decoded := decode s.cmdIn

/-- Removing a command from the front of `CMD_IN`, leaving what follows it (R41, R62). -/
def State.takeCommand (rest : List Byte) (s : State) : State := { s with cmdIn := rest }

/-- `status || opcode || ToBE16(len(payload)) || payload` (R61, R64). -/
def responseBytes (st : Status) (opcode : Byte) (payload : List Byte) : List Byte :=
  st.code :: opcode :: (toBE16 payload.length ++ payload)

/-- `Emit(status, payload)`: the response goes to the back of `RSP_OUT` (R42, R64). -/
def State.emit (st : Status) (opcode : Byte) (payload : List Byte) (s : State) : State :=
  { s with rspOut := s.rspOut ++ responseBytes st opcode payload }

/-- Rejection: no register is written, and the response is the 4-byte header with the error status (R203 (a), (c);
(b), the removal from `CMD_IN`, is the step's). Nothing is saved and there is nothing to return to (R205). -/
def State.reject (e : Status) (opcode : Byte) (s : State) : State := s.emit e opcode []

/-- `raise e`: the command ends rejected, and the machine goes on (R203 (d)). -/
def raise (e : Status) (opcode : Byte) (s : State) : Host.Outcome State Fault Refusal := .next (s.reject e opcode)

/-- The last act of an accepted command: `Emit(OK, payload)` (R64, R65). -/
def accept (opcode : Byte) (payload : List Byte) (s : State) : Host.Outcome State Fault Refusal :=
  .next (s.emit .ok opcode payload)

/-! ## Hash Engine micro-operations -/

/-- An empty `BUF`. -/
def zeroBlock : Vector Byte 64 := Vector.replicate 64 0

/-- `HE_Init()`: every data register of the engine is written (R106). -/
def heInit : HashRegs := { h := sha256IV, buf := zeroBlock, bufLen := 0, bitLen := 0 }

/-- One byte into the buffer; the 64th runs the compression and empties it (the loop body of R107). -/
def heAbsorbByte (r : HashRegs) (b : Byte) : HashRegs :=
  if room : r.bufLen.val + 1 < 64 then
    { r with buf := r.buf.set r.bufLen b, bufLen := ⟨r.bufLen.val + 1, room⟩ }
  else
    { r with h := compress r.h (r.buf.set r.bufLen b), buf := zeroBlock, bufLen := 0 }

/-- The loop of R107, byte by byte in order. -/
def heAbsorbBytes (r : HashRegs) (s : List Byte) : HashRegs := s.foldl heAbsorbByte r

/-- `HE_Absorb(s)` (R107). -/
def heAbsorb (r : HashRegs) (s : List Byte) : HashRegs :=
  let r' := heAbsorbBytes r s
  { r' with bitLen := r.bitLen + BitVec.ofNat 64 (8 * s.length) }

/-- `HE_Release()` but for `OWNER`, which the command writes: `H` is left as it is (R109). -/
def heRelease (r : HashRegs) : HashRegs := { r with buf := zeroBlock, bufLen := 0, bitLen := 0 }

/-- `BUF[56..63] <- ToBE64(L)` (R108). -/
def withLength (buf : Vector Byte 64) (l : BitVec 64) : Vector Byte 64 :=
  Vector.ofFn fun i => if i.val < 56 then buf[i] else be64Byte l (i.val - 56)

/-- The chaining value after the padding's compressions: two when the buffer holds 56 bytes or more, else one
(R108, 90_conflicts.md C2). Irreducible as `compress` is. -/
@[irreducible] def heFinalWords (r : HashRegs) : Vector Word 8 :=
  let padded := r.buf.set r.bufLen Config.padByte
  if r.bufLen.val ≥ Config.padThreshold then
    compress (compress r.h padded) (withLength zeroBlock r.bitLen)
  else
    compress r.h (withLength padded r.bitLen)

/-- `HE_Finish()`: the digest and the released engine, whose `H` holds the digest's words (R108, R109). -/
def heFinish (r : HashRegs) : Vector Byte 32 × HashRegs :=
  let h := heFinalWords r
  (digestBytes h, heRelease { r with h := h })

/-! ## Register writes of the command rules -/

/-- The engine's registers and its owner. -/
def State.setHash (he : HashRegs) (o : Owner) (s : State) : State := { s with he := he, owner := o }

/-- `HE_Absorb(P)` on the engine held (R111, R172). -/
def State.absorb (p : List Byte) (s : State) : State := { s with he := heAbsorb s.he p }

/-- `KEY <- k; CKEYV <- 1` (R140). -/
def State.loadKey (k : Vector Word 8) (s : State) : State := { s with key := k, ckeyv := true }

/-- `NONCE <- n; NONCEV <- 1` (R141). -/
def State.loadNonce (n : Vector Word 3) (s : State) : State := { s with nonce := n, noncev := true }

/-- `K0 <- k; MKEYV <- 1; TAGV <- 0; VOK <- 0` (R170). -/
def State.loadMacKey (k : Vector Byte 64) (s : State) : State :=
  { s with k0 := k, mkeyv := true, tagv := false, vok := false }

/-- The engine after the inner pad; `OWNER <- MAC; TAGV <- 0; VOK <- 0` (R171). -/
def State.openMac (s : State) : State :=
  { s with he := heAbsorb heInit (padBlock s.k0 Config.innerPad), owner := .mac, tagv := false, vok := false }

/-- The two hashes that end a MAC: the inner digest, then the outer pad and the inner digest under a fresh
`HE_Init` (R173). Irreducible as `compress` is. -/
@[irreducible] def macFinish (k0 : Vector Byte 64) (r : HashRegs) : Vector Byte 32 × HashRegs :=
  let inner := (heFinish r).1
  heFinish (heAbsorb (heAbsorb heInit (padBlock k0 Config.outerPad)) inner.toList)

/-- The engine after `macFinish`, `OWNER <- NONE; TAG <- t; TAGV <- 1; VOK <- 0` (R173). -/
def State.closeMac (s : State) : State :=
  { s with
    he := (macFinish s.k0 s.he).2
    owner := .none
    tag := (macFinish s.k0 s.he).1
    tagv := true
    vok := false }

/-- `VOK <- ok` (R175). -/
def State.setVok (ok : Bool) (s : State) : State := { s with vok := ok }

end Sys2Proof.Machine
end

