-- ==== Sys2Proof/Machine/Authenticator.lean ====
section
/-! DEFINITION. The Message Authenticator's commands (42_authenticator.md R170 to R175). -/

namespace Sys2Proof.Machine

/-- What `MA_SETKEY` does to the engine and its owner before it writes the key block: a long key is hashed on the
engine; a short key only ends a MAC in progress (R170, R250, R251). -/
def macKeyEngine (p : List Byte) (s : State) : State :=
  if p.length > Config.macBlockBytes then s.setHash (heFinish (heAbsorb heInit p)).2 .none
  else if s.owner = .mac then s.setHash (heRelease s.he) .none
  else s

/-- The key block `K0` of a raw key: hashed first when it exceeds 64 bytes, then zero-padded (R161, R170). -/
def macKeyBlock (p : List Byte) : Vector Byte 64 :=
  if p.length > Config.macBlockBytes then zeroPadded (heFinish (heAbsorb heInit p)).1.toList else zeroPadded p

/-- `MA_SETKEY` (R170): accepted in every state. -/
def execMaSetkey (rsv : Byte) (p : List Byte) (s : State) : Host.Outcome State Fault Refusal :=
  match firstError [formatError rsv] with
  | some e => raise e opMaSetkey s
  | none => accept opMaSetkey [] ((macKeyEngine p s).loadMacKey (macKeyBlock p))

/-- `MA_INIT` (R171): whatever holds the engine is displaced. -/
def execMaInit (rsv : Byte) (p : List Byte) (s : State) : Host.Outcome State Fault Refusal :=
  match firstError [formatError rsv, lengthError p 0, macInitError s] with
  | some e => raise e opMaInit s
  | none => accept opMaInit [] s.openMac

/-- `MA_UPDATE` (R172). -/
def execMaUpdate (rsv : Byte) (p : List Byte) (s : State) : Host.Outcome State Fault Refusal :=
  match firstError [formatError rsv, ownerError s .mac, overflowError s p] with
  | some e => raise e opMaUpdate s
  | none => accept opMaUpdate [] (s.absorb p)

/-- `MA_FINAL` (R173): the response is the tag's 32 bytes. -/
def execMaFinal (rsv : Byte) (p : List Byte) (s : State) : Host.Outcome State Fault Refusal :=
  match firstError [formatError rsv, lengthError p 0, ownerError s .mac] with
  | some e => raise e opMaFinal s
  | none => accept opMaFinal (macFinish s.k0 s.he).1.toList s.closeMac

/-- `MA_FINALX` (R174): as `MA_FINAL`, the response is the tag's text. -/
def execMaFinalx (rsv : Byte) (p : List Byte) (s : State) : Host.Outcome State Fault Refusal :=
  match firstError [formatError rsv, lengthError p 0, ownerError s .mac] with
  | some e => raise e opMaFinalx s
  | none => accept opMaFinalx (hexText (macFinish s.k0 s.he).1.toList) s.closeMac

/-- `MA_VERIFY` (R175): a mismatch is a result, not an error (R214). -/
def execMaVerify (rsv : Byte) (p : List Byte) (s : State) : Host.Outcome State Fault Refusal :=
  match firstError [formatError rsv, tagError s] with
  | some e => raise e opMaVerify s
  | none =>
    let ok := matchesTag p s.tag
    accept opMaVerify [if ok then 0x01 else 0x00] (s.setVok ok)

end Sys2Proof.Machine
end

