-- ==== Sys2Proof/Machine/HashEngine.lean ====
section
/-! DEFINITION. The Hash Engine's commands (40_hash_engine.md R110 to R112). -/

namespace Sys2Proof.Machine

/-- `SHA_INIT` (R110): accepted in every state; a hash or a MAC in progress is discarded. -/
def execShaInit (rsv : Byte) (p : List Byte) (s : State) : Host.Outcome State Fault Refusal :=
  match firstError [formatError rsv, lengthError p 0] with
  | some e => raise e opShaInit s
  | none => accept opShaInit [] (s.setHash heInit .hash)

/-- `SHA_UPDATE` (R111). -/
def execShaUpdate (rsv : Byte) (p : List Byte) (s : State) : Host.Outcome State Fault Refusal :=
  match firstError [formatError rsv, ownerError s .hash, overflowError s p] with
  | some e => raise e opShaUpdate s
  | none => accept opShaUpdate [] (s.absorb p)

/-- `SHA_FINAL` (R112). -/
def execShaFinal (rsv : Byte) (p : List Byte) (s : State) : Host.Outcome State Fault Refusal :=
  match firstError [formatError rsv, lengthError p 0, ownerError s .hash] with
  | some e => raise e opShaFinal s
  | none =>
    let fin := heFinish s.he
    accept opShaFinal fin.1.toList (s.setHash fin.2 .none)

end Sys2Proof.Machine
end

