-- ==== Sys2Proof/Machine/ChaCha20.lean ====
section
/-! DEFINITION. The keystream block of the Stream Cipher: the constants and micro-operations of 41_stream_cipher.md
R131 to R134, and the keystream XOR of R143. The working state is scratch (10_state.md R30). -/

namespace Sys2Proof.Machine

/-- `ROTL(x, n)` for 0 < n < 32 (R8). -/
def rotl (x : Word) (n : Nat) : Word := (x <<< n) ||| (x >>> (32 - n))

/-- `SIGMA[0..3]`, the constant words (R131). -/
def sigma : Vector Word 4 := #v[0x61707865, 0x3320646e, 0x79622d32, 0x6b206574]

/-- `QR(a, b, c, d)` on the working state, for four distinct indices (R132). -/
def quarterRound (x : Vector Word 16) (ia ib ic id : Fin 16) : Vector Word 16 :=
  let a := x[ia] + x[ib]
  let d := rotl (x[id] ^^^ a) 16
  let c := x[ic] + d
  let b := rotl (x[ib] ^^^ c) 12
  let a := a + b
  let d := rotl (d ^^^ a) 8
  let c := c + d
  let b := rotl (b ^^^ c) 7
  (((x.set ia a).set ib b).set ic c).set id d

/-- The column pass (R134). -/
def columnPass (x : Vector Word 16) : Vector Word 16 :=
  quarterRound (quarterRound (quarterRound (quarterRound x 0 4 8 12) 1 5 9 13) 2 6 10 14) 3 7 11 15

/-- The diagonal pass (R134). -/
def diagonalPass (x : Vector Word 16) : Vector Word 16 :=
  quarterRound (quarterRound (quarterRound (quarterRound x 0 5 10 15) 1 6 11 12) 2 7 8 13) 3 4 9 14

/-- `n` iterations of a column pass followed by a diagonal pass (R130, R134). -/
def ccDoubleRounds : Nat → Vector Word 16 → Vector Word 16
  | 0, x => x
  | n + 1, x => ccDoubleRounds n (diagonalPass (columnPass x))

/-- The initial state `s[0..15]`: constants, key, counter, nonce (R133). -/
def ccInitialState (key : Vector Word 8) (ctr : Word) (nonce : Vector Word 3) : Vector Word 16 :=
  sigma ++ key ++ #v[ctr] ++ nonce

/-- `CC_Block(ctr)` (R134). Irreducible as `compress` is. -/
@[irreducible] def ccKeystreamBlock (key : Vector Word 8) (nonce : Vector Word 3) (ctr : Word) : Vector Byte 64 :=
  let s := ccInitialState key ctr nonce
  let x := ccDoubleRounds Config.doubleRounds s
  keystreamBytes (Vector.ofFn fun i => x[i] + s[i])

/-- `nb` blocks of keystream XOR starting at block `j`; the last block of the input may be partial, and the unused
tail of its keystream is discarded (R143). -/
def ccXorBlocks (key : Vector Word 8) (nonce : Vector Word 3) : Nat → Nat → List Byte → List Byte
  | 0, _, _ => []
  | nb + 1, j, p =>
    List.zipWith (· ^^^ ·) (p.take 64) (ccKeystreamBlock key nonce (BitVec.ofNat 32 j)).toList
      ++ ccXorBlocks key nonce nb (j + 1) (p.drop 64)

/-- The output of `CC_CRYPT` on `p`: `ceil(LEN / 64)` blocks from counter 0 (R143). -/
def ccCryptBytes (key : Vector Word 8) (nonce : Vector Word 3) (p : List Byte) : List Byte :=
  ccXorBlocks key nonce ((p.length + 63) / 64) 0 p

end Sys2Proof.Machine
end

