-- ==== Sys2Proof/Machine/StreamCipher.lean ====
section
/-! DEFINITION. The Stream Cipher's commands (41_stream_cipher.md R140 to R143). -/

namespace Sys2Proof.Machine

/-- `CC_SETKEY` (R140): accepted in every state. -/
def execCcSetkey (rsv : Byte) (p : List Byte) (s : State) : Host.Outcome State Fault Refusal :=
  match firstError [formatError rsv, lengthError p 32] with
  | some e => raise e opCcSetkey s
  | none => accept opCcSetkey [] (s.loadKey (keyOperand p))

/-- `CC_SETNONCE` (R141): accepted in every state; freshness is not checked (R146). -/
def execCcSetnonce (rsv : Byte) (p : List Byte) (s : State) : Host.Outcome State Fault Refusal :=
  match firstError [formatError rsv, lengthError p 12] with
  | some e => raise e opCcSetnonce s
  | none => accept opCcSetnonce [] (s.loadNonce (nonceOperand p))

/-- `CC_BLOCK` (R142): writes no register. -/
def execCcBlock (rsv : Byte) (p : List Byte) (s : State) : Host.Outcome State Fault Refusal :=
  match firstError [formatError rsv, lengthError p 4, cipherInitError s] with
  | some e => raise e opCcBlock s
  | none => accept opCcBlock (ccKeystreamBlock s.key s.nonce (counterOperand p)).toList s

/-- `CC_CRYPT` (R143): the keystream restarts at counter 0; writes no register. -/
def execCcCrypt (rsv : Byte) (p : List Byte) (s : State) : Host.Outcome State Fault Refusal :=
  match firstError [formatError rsv, cipherInitError s] with
  | some e => raise e opCcCrypt s
  | none => accept opCcCrypt (ccCryptBytes s.key s.nonce p) s

end Sys2Proof.Machine
end

