-- ==== Sys2Proof/Machine/System.lean ====
section
/-! DEFINITION. The system command (43_system.md R190). -/

namespace Sys2Proof.Machine

/-- `RDSTAT` (R190): accepted in every state, writes no register. -/
def execRdstat (rsv : Byte) (p : List Byte) (s : State) : Host.Outcome State Fault Refusal :=
  match firstError [formatError rsv, lengthError p 0] with
  | some e => raise e opRdstat s
  | none => accept opRdstat [statusByte s] s

end Sys2Proof.Machine
end

