-- ==== Sys2Proof/Machine/Dispatch.lean ====
section
/-! DEFINITION. One arm per command. -/

namespace Sys2Proof.Machine

def exec (i : Instr) (s : State) : Host.Outcome State Fault Refusal :=
  match i with
  | .shaInit rsv payload => Sys2Proof.Machine.execShaInit rsv payload s
  | .shaUpdate rsv payload => Sys2Proof.Machine.execShaUpdate rsv payload s
  | .shaFinal rsv payload => Sys2Proof.Machine.execShaFinal rsv payload s
  | .ccSetkey rsv payload => Sys2Proof.Machine.execCcSetkey rsv payload s
  | .ccSetnonce rsv payload => Sys2Proof.Machine.execCcSetnonce rsv payload s
  | .ccBlock rsv payload => Sys2Proof.Machine.execCcBlock rsv payload s
  | .ccCrypt rsv payload => Sys2Proof.Machine.execCcCrypt rsv payload s
  | .maSetkey rsv payload => Sys2Proof.Machine.execMaSetkey rsv payload s
  | .maInit rsv payload => Sys2Proof.Machine.execMaInit rsv payload s
  | .maUpdate rsv payload => Sys2Proof.Machine.execMaUpdate rsv payload s
  | .maFinal rsv payload => Sys2Proof.Machine.execMaFinal rsv payload s
  | .maFinalx rsv payload => Sys2Proof.Machine.execMaFinalx rsv payload s
  | .maVerify rsv payload => Sys2Proof.Machine.execMaVerify rsv payload s
  | .rdstat rsv payload => Sys2Proof.Machine.execRdstat rsv payload s

end Sys2Proof.Machine
end

