-- ==== Sys2Proof/Machine/Step.lean ====
section
/-! DEFINITION. One step of the command sequencer (20_memory.md R41, R50, R57, 30_encoding.md R62, R63). -/

namespace Sys2Proof.Machine

/-- One step: the command at the front of `CMD_IN` is removed, `4 + LEN` bytes of it, and executed; a command with an
illegal opcode is rejected (R63, R68). While no whole command is present the block holds, changing nothing and
emitting nothing (R57; that a hold is a step to the same state: DESIGN CHOICE, safe, assumption log entry 1). -/
def step (s : State) : Host.Outcome State Fault Refusal :=
  match s.fetch with
  | .incomplete => .next s
  | .illegalOpcode opcode rest => raise .errOpcode opcode (s.takeCommand rest)
  | .command i rest => exec i (s.takeCommand rest)

/-- `s` with an instruction given by its table bits placed at the front of `CMD_IN`, where the next step takes it
from (R27, R41). What stood on `CMD_IN` follows it (DEDUCED, safe, assumption log entry 9). -/
def State.withFetchWord (s : State) (nbits w : Nat) : State := { s with cmdIn := tableBytes nbits w ++ s.cmdIn }

end Sys2Proof.Machine
end

