-- ==== Sys2Proof/Machine/HostMoves.lean ====
section
/-! DEFINITION. What the host may do to the block between two steps (70_reset_and_hazards.md R230 to R233, R262). The
step function never makes these moves; they are the environment's (DESIGN CHOICE, safe, assumption log
entry 6). -/

namespace Sys2Proof.Machine

/-- A move of the host (the table of R262). -/
inductive HostMove where
  /-- Append bytes to the back of `CMD_IN`: always allowed (R41). -/
  | append (bytes : List Byte)
  /-- Remove up to `n` bytes from the front of `RSP_OUT` (R42). -/
  | read (n : Nat)
  /-- Assert `RESET` between two commands (R230, R233). -/
  | reset
  deriving DecidableEq, Repr

/-- Bytes appended to `CMD_IN` (R41). -/
def hostAppend (bytes : List Byte) (s : State) : State := { s with cmdIn := s.cmdIn ++ bytes }

/-- Bytes removed from `RSP_OUT`; the only effect is that they are gone (R42). -/
def hostRead (n : Nat) (s : State) : State := { s with rspOut := s.rspOut.drop n }

/-- The effect of a host move on the block (R231, R232, R262). -/
def hostMove : HostMove → State → State
  | .append bytes, s => hostAppend bytes s
  | .read n, s => hostRead n s
  | .reset, _ => State.reset

end Sys2Proof.Machine
end

