-- ==== Sys2Proof/Machine/Pseudo.lean ====
section
/-! DEFINITION. The pseudo-instructions of 30_encoding.md R84 to R90: each is the command sequence that carries out one
call of the source's contracts. They are host expansions, not commands of the opcode table (DEDUCED, safe, assumption
log entry 17). An operand that has no expansion gives `none`. Where the host must carry a digest from a response into
later commands (`DERIVEKEYS`, and `HMAC` under a key of more than 65535 bytes), the whole call is a run, `call...`, in
which it does so (DEDUCED, safe, entry 15). -/

namespace Sys2Proof.Machine

/-- The commands one after another; the run stops at the first that does not answer a next state. -/
def execAll : List Instr → State → Host.Outcome State Fault Refusal
  | [], s => .next s
  | i :: rest, s =>
    match exec i s with
    | .next s' => execAll rest s'
    | .fault r => .fault r
    | .refused r => .refused r

/-- Consecutive pieces of at most 65535 bytes, at most `fuel` of them. -/
def cutPieces : Nat → List Byte → List (List Byte)
  | 0, _ => []
  | fuel + 1, m =>
    if m.isEmpty then []
    else m.take Config.maxPayload :: cutPieces fuel (m.drop Config.maxPayload)

/-- `chunks(m)` (section 5 of 30_encoding.md): full pieces first, and no command for an empty `m` (DESIGN CHOICE,
safe, assumption log entry 11). -/
def chunks (m : List Byte) : List (List Byte) := cutPieces m.length m

/-- `SHA256 m` (R84). -/
def pseudoSha256 (m : List Byte) : List Instr :=
  [.shaInit 0 []] ++ (chunks m).map (.shaUpdate 0) ++ [.shaFinal 0 []]

/-- `ToLE32(w)` (R8). -/
def toLE32 (w : Word) : List Byte := [leByte w 0, leByte w 1, leByte w 2, leByte w 3]

/-- `CC_KSBLOCK key, nonce, ctr` (R85). -/
def pseudoCcKsblock (key nonce : List Byte) (ctr : Word) : List Instr :=
  [.ccSetkey 0 key, .ccSetnonce 0 nonce, .ccBlock 0 (toLE32 ctr)]

/-- `CC_ENCRYPT key, nonce, input` (R86): an input of more than 65535 bytes has no expansion, since one command cannot
carry it and two would both start at counter 0. -/
def pseudoCcEncrypt (key nonce input : List Byte) : Option (List Instr) :=
  if input.length ≤ Config.maxPayload then some [.ccSetkey 0 key, .ccSetnonce 0 nonce, .ccCrypt 0 input] else none

/-- `CC_DECRYPT`: the same sequence (R86). -/
def pseudoCcDecrypt (key nonce input : List Byte) : Option (List Instr) := pseudoCcEncrypt key nonce input

/-- The commands of one MAC, ending in `MA_FINAL` or `MA_FINALX` (R87, R88). -/
def macCommands (final : Instr) (key data : List Byte) : List Instr :=
  [.maSetkey 0 key, .maInit 0 []] ++ (chunks data).map (.maUpdate 0) ++ [final]

/-- `HMAC key, data` as a pure expansion, which a key of at most 65535 bytes has (R87); `callHmac` takes any key. -/
def pseudoHmac (key data : List Byte) : Option (List Instr) :=
  if key.length ≤ Config.maxPayload then some (macCommands (.maFinal 0 []) key data) else none

/-- `HMAC_HEX key, data` as a pure expansion (R88); `callHmacHex` takes any key. -/
def pseudoHmacHex (key data : List Byte) : Option (List Instr) :=
  if key.length ≤ Config.maxPayload then some (macCommands (.maFinalx 0 []) key data) else none

/-- `HMAC_VERIFY data, receivedHex`, under the key already loaded (R89). -/
def pseudoHmacVerify (data receivedHex : List Byte) : List Instr :=
  [.maInit 0 []] ++ (chunks data).map (.maUpdate 0) ++ [.maFinal 0 [], .maVerify 0 receivedHex]

/-- The first half of `DERIVEKEYS secret`: the digest `$d` comes back in the last response (R90, R241). -/
def pseudoDeriveDigest (secret : List Byte) : List Instr := pseudoSha256 secret

/-- The second half of `DERIVEKEYS secret`: the digest becomes both keys (R90, R241). -/
def pseudoLoadDigest (d : List Byte) : List Instr := [.ccSetkey 0 d, .maSetkey 0 d]

/-! ## Calls in which the host carries a digest -/

/-- The digest the host finds in a response of 32 payload bytes just appended to `RSP_OUT` (R81, `$name`). -/
def State.lastDigest (s : State) : List Byte := s.rspOut.drop (s.rspOut.length - 32)

/-- `SHA256 m`, then the commands the host makes of the digest in its response (R87, R90). -/
def callWithDigest (m : List Byte) (next : List Byte → List Instr) (s : State) : Host.Outcome State Fault Refusal :=
  match execAll (pseudoSha256 m) s with
  | .next t => execAll (next t.lastDigest) t
  | .fault r => .fault r
  | .refused r => .refused r

/-- One MAC under a key of any length: a key of more than 65535 bytes is first replaced by its digest (R87). -/
def callMac (final : Instr) (key data : List Byte) (s : State) : Host.Outcome State Fault Refusal :=
  if key.length ≤ Config.maxPayload then execAll (macCommands final key data) s
  else callWithDigest key (fun d => macCommands final d data) s

/-- `HMAC key, data`, for a key of any length (R87). -/
def callHmac (key data : List Byte) (s : State) : Host.Outcome State Fault Refusal :=
  callMac (.maFinal 0 []) key data s

/-- `HMAC_HEX key, data`, for a key of any length (R88). -/
def callHmacHex (key data : List Byte) (s : State) : Host.Outcome State Fault Refusal :=
  callMac (.maFinalx 0 []) key data s

/-- `DERIVEKEYS secret` (R90, R241). -/
def callDeriveKeys (secret : List Byte) (s : State) : Host.Outcome State Fault Refusal :=
  callWithDigest secret pseudoLoadDigest s

end Sys2Proof.Machine
end

