-- ==== Sys2Proof/Safety.lean ====
section
/-! DEFINITION. The terms claims are stated in: when the block holds and when a run is over, the invariants of
10_state.md R16 and R25, and reference definitions that say what the commands compute without the streaming registers
(one-shot SHA-256 and HMAC, the error matrix, the flag table). -/

namespace Sys2Proof.Machine

/-! ## Holding, and the end of a run -/

/-- The block holds: no whole command is on `CMD_IN` (20_memory.md R57, 60_exceptions.md R213). -/
def State.holding (s : State) : Bool := s.fetch == .incomplete

/-- The run is over: `CMD_IN` is empty, and every command taken from it has been answered (70_reset_and_hazards.md
R261). -/
def State.runOver (s : State) : Bool := s.cmdIn.isEmpty

/-! ## Invariants -/

/-- The bytes of `BUF` at and above `BUFLEN` are 0x00 (R16 (b)). -/
def HashRegs.bufClear (r : HashRegs) : Prop := ∀ i : Fin 64, r.bufLen ≤ i → r.buf[i] = 0

/-- What holds between any two commands: R16 (b) to (e), the implication of R25, and two facts the flag rules give
(an open MAC and a valid tag have a loaded key, R21, R23). R16 (a) is in the type of `BUFLEN`. -/
structure State.Inv (s : State) : Prop where
  /-- R16 (b). -/
  bufClear : s.he.bufClear
  /-- R16 (c), first half. -/
  wholeBytes : s.he.bitLen.toNat % 8 = 0
  /-- R16 (c), second half. -/
  fill : s.he.bufLen.val = s.he.bitLen.toNat / 8 % 64
  /-- R16 (d). -/
  idle : s.owner = .none → s.he.bufLen = 0 ∧ s.he.bitLen = 0 ∧ s.he.buf = zeroBlock
  /-- R16 (e). -/
  macOpen : s.owner = .mac → 512 ≤ s.he.bitLen.toNat
  /-- R25: `VOK = 1` implies `TAGV = 1`. -/
  vokTagged : s.vok = true → s.tagv = true
  /-- An open MAC has a key (R21, R171). -/
  macKeyed : s.owner = .mac → s.mkeyv = true
  /-- A valid tag has a key (R21, R23). -/
  tagKeyed : s.tagv = true → s.mkeyv = true

/-- Two states no command sequence can tell apart: they agree but for data registers whose valid flag is 0, and for
`H` while nothing holds the engine (R31, 93_implementation_defined.md U12). -/
structure State.Alike (s s' : State) : Prop where
  cmdIn : s.cmdIn = s'.cmdIn
  rspOut : s.rspOut = s'.rspOut
  owner : s.owner = s'.owner
  buf : s.he.buf = s'.he.buf
  bufLen : s.he.bufLen = s'.he.bufLen
  bitLen : s.he.bitLen = s'.he.bitLen
  ckeyv : s.ckeyv = s'.ckeyv
  noncev : s.noncev = s'.noncev
  mkeyv : s.mkeyv = s'.mkeyv
  tagv : s.tagv = s'.tagv
  vok : s.vok = s'.vok
  h : s.owner ≠ .none → s.he.h = s'.he.h
  key : s.ckeyv = true → s.key = s'.key
  nonce : s.noncev = true → s.nonce = s'.nonce
  k0 : s.mkeyv = true → s.k0 = s'.k0
  tag : s.tagv = true → s.tag = s'.tag

end Sys2Proof.Machine

namespace Sys2Proof.Reference

open Sys2Proof.Machine

/-! ## SHA-256 and HMAC of whole messages (R108, R114, R161, R162) -/

/-- `ToBE64(L)` (R8). -/
def toBE64 (l : BitVec 64) : List Byte := (List.range 8).map (be64Byte l)

/-- The padding after `n` message bytes: `0x80 || 0^z || ToBE64(L)` with the smallest `z` that makes the total a
multiple of 64 (the last sentence of R108). -/
def padding (n : Nat) (l : BitVec 64) : List Byte :=
  [Config.padByte] ++ List.replicate ((119 - n % 64) % 64) 0 ++ toBE64 l

/-- Block `j` of a byte string cut into 64-byte blocks. -/
def blockAt (p : List Byte) (j : Nat) : Vector Byte 64 := Vector.ofFn fun i => p.getD (64 * j + i.val) 0

/-- The chaining value after the whole 64-byte blocks of `p`, in order (R100, R105). -/
def chain (h : Vector Word 8) (p : List Byte) : Vector Word 8 :=
  (List.range (p.length / 64)).foldl (fun h j => compress h (blockAt p j)) h

/-- The eight words of SHA-256 of a message. -/
def sha256Words (m : List Byte) : Vector Word 8 :=
  chain sha256IV (m ++ padding m.length (BitVec.ofNat 64 (8 * m.length)))

/-- SHA-256 of a message (R114). -/
def sha256 (m : List Byte) : Vector Byte 32 := digestBytes (sha256Words m)

/-- The key block of a raw key (R161). -/
def keyBlock (k : List Byte) : List Byte :=
  if k.length > 64 then (sha256 k).toList ++ List.replicate 32 0 else k ++ List.replicate (64 - k.length) 0

/-- HMAC-SHA256 (R160, R162). -/
def hmac (k data : List Byte) : Vector Byte 32 :=
  sha256 ((keyBlock k).map (· ^^^ 0x5C) ++ (sha256 ((keyBlock k).map (· ^^^ 0x36) ++ data)).toList)

/-! ## The engine's registers after an update and after a final, block-wise -/

/-- The bytes waiting in the buffer (R12, R13). -/
def waiting (r : HashRegs) : List Byte := r.buf.toList.take r.bufLen.val

/-- The engine after absorbing `s`: the waiting bytes and `s` together, all whole blocks compressed, the rest left
waiting in a buffer that is zero above it (R16, R107). -/
def absorb (r : HashRegs) (s : List Byte) : HashRegs :=
  let all := waiting r ++ s
  { h := chain r.h all
    buf := Vector.ofFn fun i => (all.drop (64 * (all.length / 64))).getD i.val 0
    bufLen := ⟨all.length % 64, Nat.mod_lt _ (by decide)⟩
    bitLen := r.bitLen + BitVec.ofNat 64 (8 * s.length) }

/-- The words the engine finishes with: the waiting bytes and their padding compressed (R108). -/
def finishWords (r : HashRegs) : Vector Word 8 := chain r.h (waiting r ++ padding r.bufLen.val r.bitLen)

/-- The engine released, its `H` holding `h` (R109). -/
def released (h : Vector Word 8) : HashRegs :=
  { h := h, buf := Vector.replicate 64 0, bufLen := 0, bitLen := 0 }

/-! ## Operands and texts -/

/-- `LE32` as the number `b0 + b1*2^8 + b2*2^16 + b3*2^24` of the four payload bytes from `4i` on (R8). -/
def le32At (p : List Byte) (i : Nat) : Word :=
  BitVec.ofNat 32 ((p.getD (4 * i) 0).toNat + (p.getD (4 * i + 1) 0).toNat * 2 ^ 8
    + (p.getD (4 * i + 2) 0).toNat * 2 ^ 16 + (p.getD (4 * i + 3) 0).toNat * 2 ^ 24)

/-- Output byte `i` of `CC_CRYPT`: the payload byte and the keystream byte at its position (R145). -/
def cryptByte (s : State) (p : List Byte) (i : Nat) : Byte :=
  p.getD i 0 ^^^ (ccKeystreamBlock s.key s.nonce (BitVec.ofNat 32 (i / 64))).toList.getD (i % 64) 0

/-- `p` is the text `x`, or `x` with some of its letters `a` to `f` in upper case (R164, R176). -/
def sameUpToCase (p x : List Byte) : Bool :=
  p.length == x.length &&
    (p.zip x).all fun (b, c) => b == c || (0x61 ≤ c && c ≤ 0x66 && b == c - 0x20)

/-- A command rejected: no register written, a 4-byte response with the status code and the echo (R203). -/
def rejectedWith (code opcode : Byte) (s : State) : State := { s with rspOut := s.rspOut ++ [code, opcode, 0x00, 0x00] }

/-! ## The error matrix, the response lengths and the flag table -/

/-- The status a command gets in a state: the matrix of R201 under the priority of R202. -/
def verdict (i : Instr) (s : State) : Status :=
  if i.rsv ≠ 0 then .errFormat
  else if i.legalLen = false then .errLength
  else
    match i with
    | .shaInit _ _ | .ccSetkey _ _ | .ccSetnonce _ _ | .maSetkey _ _ | .rdstat _ _ => .ok
    | .shaUpdate _ p =>
      if s.owner ≠ .hash then .errSequence
      else if s.he.bitLen.toNat + 8 * p.length ≥ 2 ^ 64 then .errOverflow else .ok
    | .shaFinal _ _ => if s.owner ≠ .hash then .errSequence else .ok
    | .ccBlock _ _ | .ccCrypt _ _ => if s.ckeyv && s.noncev then .ok else .errNotInitialized
    | .maInit _ _ => if s.mkeyv then .ok else .errNotInitialized
    | .maUpdate _ p =>
      if s.owner ≠ .mac then .errSequence
      else if s.he.bitLen.toNat + 8 * p.length ≥ 2 ^ 64 then .errOverflow else .ok
    | .maFinal _ _ | .maFinalx _ _ => if s.owner ≠ .mac then .errSequence else .ok
    | .maVerify _ _ => if s.tagv then .ok else .errSequence

/-- The length of an accepted command's response payload (the table of R65). -/
def responseLen : Instr → Nat
  | .shaInit _ _ | .shaUpdate _ _ | .ccSetkey _ _ | .ccSetnonce _ _ => 0
  | .maSetkey _ _ | .maInit _ _ | .maUpdate _ _ => 0
  | .shaFinal _ _ | .maFinal _ _ => 32
  | .ccBlock _ _ | .maFinalx _ _ => 64
  | .ccCrypt _ p => p.length
  | .maVerify _ _ | .rdstat _ _ => 1

/-- The six flags. -/
structure Flags where
  owner : Owner
  ckeyv : Bool
  noncev : Bool
  mkeyv : Bool
  tagv : Bool
  vok : Bool
  deriving DecidableEq, Repr

/-- The flags of a state. -/
def flagsOf (s : State) : Flags :=
  { owner := s.owner, ckeyv := s.ckeyv, noncev := s.noncev, mkeyv := s.mkeyv, tagv := s.tagv, vok := s.vok }

/-- The flags after an accepted command: the table of R28, row by row. -/
def flagsAfter (i : Instr) (s : State) : Flags :=
  let f := flagsOf s
  match i with
  | .shaInit _ _ => { f with owner := .hash }
  | .shaUpdate _ _ | .ccBlock _ _ | .ccCrypt _ _ | .maUpdate _ _ | .rdstat _ _ => f
  | .shaFinal _ _ => { f with owner := .none }
  | .ccSetkey _ _ => { f with ckeyv := true }
  | .ccSetnonce _ _ => { f with noncev := true }
  | .maSetkey _ p =>
    { f with
      owner := if p.length > 64 then .none else if s.owner = .mac then .none else s.owner
      mkeyv := true
      tagv := false
      vok := false }
  | .maInit _ _ => { f with owner := .mac, tagv := false, vok := false }
  | .maFinal _ _ | .maFinalx _ _ => { f with owner := .none, tagv := true, vok := false }
  | .maVerify _ p => { f with vok := sameUpToCase p (hexText s.tag.toList) }

end Sys2Proof.Reference
end

