-- ==== Sys2Proof/Certificates/Slice0/Obligations.lean ====
section
/-! DEFINITION. What is claimed of the model, each statement under the rule of spec/ it comes from. Results are written
with the reference definitions of Safety.lean, which do not use the streaming registers. -/

open Sys2Proof Sys2Proof.Machine

/-! ## Reset -/

/-- R31, R230 to R232: what reset leaves, whatever the state was. -/
def Obligations.ResetLeavesTheTableOfResetValues : Prop :=
  ∀ s : State, ∃ t, hostMove .reset s = t ∧ t = core.reset ∧
    (∀ i : Fin 8, t.he.h[i] = 0) ∧ (∀ i : Fin 64, t.he.buf[i] = 0) ∧ t.he.bufLen.val = 0 ∧ t.he.bitLen = 0 ∧
    t.owner = .none ∧ (∀ i : Fin 8, t.key[i] = 0) ∧ (∀ i : Fin 3, t.nonce[i] = 0) ∧ t.ckeyv = false ∧
    t.noncev = false ∧ (∀ i : Fin 64, t.k0[i] = 0) ∧ t.mkeyv = false ∧ (∀ i : Fin 32, t.tag[i] = 0) ∧
    t.tagv = false ∧ t.vok = false ∧ statusByte t = 0x00 ∧ t.cmdIn = [] ∧ t.rspOut = []

/-- R16, R25 at reset. -/
def Obligations.ResetMeetsTheInvariant : Prop := State.reset.Inv

/-! ## Invariants -/

/-- R16 (b) to (e) and the implication of R25: every step keeps them. -/
def Obligations.EveryStepKeepsTheInvariant : Prop :=
  ∀ s t : State, s.Inv → step s = .next t → t.Inv

/-- R31 (last paragraph): data registers that no valid flag covers cannot be told apart from any other values. The
invariant is a premise because an open MAC without a key, which no run reaches, would show `K0`. -/
def Obligations.UnwrittenRegistersAreUnobservable : Prop :=
  ∀ s s' t : State, s.Inv → s.Alike s' → step s = .next t → ∃ t', step s' = .next t' ∧ t.Alike t'

/-! ## Encoding, framing, the step -/

/-- Every command the format can carry decodes from its own bytes, whatever follows. -/
def Obligations.DecodeAfterEncode : Prop :=
  ∀ (i : Instr) (rest : List Byte), i.encodable = true → decode (encode i ++ rest) = .command i rest

/-- What the decoder reads is the encoding of what it answers, and the format can carry it. -/
def Obligations.EncodeAfterDecode : Prop :=
  ∀ (bs rest : List Byte) (i : Instr), decode bs = .command i rest → bs = encode i ++ rest ∧ i.encodable = true

/-- Words written out from R61 and R66, one for each unit. -/
def Obligations.WordsDecodeAsTheTableSays : Prop :=
  decode [0x02, 0x00, 0x00, 0x03, 0x61, 0x62, 0x63, 0xFF] = .command (.shaUpdate 0 [0x61, 0x62, 0x63]) [0xFF] ∧
  decode [0x12, 0x00, 0x00, 0x04, 0x01, 0x00, 0x00, 0x00] = .command (.ccBlock 0 [0x01, 0x00, 0x00, 0x00]) [] ∧
  decode [0x24, 0x00, 0x00, 0x01, 0x00] = .command (.maFinalx 0 [0x00]) [] ∧
  decode [0x30, 0x07, 0x00, 0x00] = .command (.rdstat 0x07 []) [] ∧
  decode [0x04, 0x00, 0x00, 0x00, 0x30] = .illegalOpcode 0x04 [0x30] ∧
  decode [0x01, 0x00, 0x01, 0x00, 0x00] = .incomplete

/-- When the bytes at the front of `CMD_IN` decode to a command, a step takes them off and executes it. -/
def Obligations.StepRunsTheDecodedCommand : Prop :=
  ∀ (s : State) (i : Instr) (rest : List Byte), decode s.cmdIn = .command i rest →
    step s = exec i { s with cmdIn := rest }

/-- R62: framing is independent of validity. For every header and its `LEN` bytes a step removes exactly `4 + LEN`
bytes and appends one response that echoes the opcode and gives its own payload's length; an error has none. -/
def Obligations.StepConsumesOneCommandWhateverItsHeader : Prop :=
  ∀ (s : State) (b0 b1 b2 b3 : Byte) (p rest : List Byte),
    s.cmdIn = b0 :: b1 :: b2 :: b3 :: (p ++ rest) → p.length = b2.toNat * 256 + b3.toNat →
    ∃ (t : State) (st : Status) (payload : List Byte), step s = .next t ∧ t.cmdIn = rest ∧
      payload.length ≤ 65535 ∧ (st ≠ .ok → payload = []) ∧
      t.rspOut = s.rspOut ++ ([st.code, b0, BitVec.ofNat 8 (payload.length / 256), BitVec.ofNat 8 payload.length]
        ++ payload)

/-- R57: an incomplete command holds the block, changing nothing. That a hold is a step to the same state is the
model's choice (assumption log entry 1). -/
def Obligations.IncompleteCommandHolds : Prop :=
  ∀ s : State, (s.cmdIn.length < 4 ∨ ∃ b0 b1 b2 b3 more, s.cmdIn = b0 :: b1 :: b2 :: b3 :: more ∧
      more.length < b2.toNat * 256 + b3.toNat) →
    s.holding = true ∧ step s = .next s

/-- R41: bytes the host appends behind a whole command do not change what that command does. -/
def Obligations.AppendedBytesDoNotDisturbACommand : Prop :=
  ∀ (s : State) (bs : List Byte), s.holding = false →
    ∃ t, step s = .next t ∧ step (hostAppend bs s) = .next (hostAppend bs t)

/-- R204, R216, R260: a stream of `n` whole commands, whatever they are, is consumed and answered in `n` steps, one
response of at least four bytes each. -/
def Obligations.EveryStreamOfCommandsIsAnswered : Prop :=
  ∀ (s : State) (cmds : List (List Byte)),
    (∀ c ∈ cmds, ∃ b0 b1 b2 b3 p, c = b0 :: b1 :: b2 :: b3 :: p ∧ p.length = b2.toNat * 256 + b3.toNat) →
    s.cmdIn = cmds.flatten →
    ∃ (t : State) (rsps : List (List Byte)), core.run cmds.length s = .next t ∧ t.runOver = true ∧
      t.rspOut = s.rspOut ++ rsps.flatten ∧ rsps.length = cmds.length ∧
      List.Forall₂ (fun c r => 4 ≤ r.length ∧ r.tail.head? = c.head?) cmds rsps

/-! ## Errors -/

/-- R68: the 242 other opcodes. -/
def Obligations.IllegalOpcodesAreRejected : Prop :=
  ∀ (s : State) (op rsv b2 b3 : Byte) (p rest : List Byte),
    op ∉ ([0x01, 0x02, 0x03, 0x10, 0x11, 0x12, 0x13, 0x20, 0x21, 0x22, 0x23, 0x24, 0x25, 0x30] : List Byte) →
    s.cmdIn = op :: rsv :: b2 :: b3 :: (p ++ rest) → p.length = b2.toNat * 256 + b3.toNat →
    step s = .next { s with cmdIn := rest, rspOut := s.rspOut ++ [0x01, op, 0x00, 0x00] }

/-- R201, R202, R65: every command answers with the status of the error matrix under the priority of the checks, and
an accepted one with as long a payload as the table of R65 says. -/
def Obligations.StatusFollowsTheErrorMatrix : Prop :=
  ∀ (i : Instr) (s : State), ∃ (t : State) (payload : List Byte), exec i s = .next t ∧
    payload.length = (if Reference.verdict i s = .ok then Reference.responseLen i else 0) ∧
    t.rspOut = s.rspOut ++ ([(Reference.verdict i s).code, i.opcode, BitVec.ofNat 8 (payload.length / 256),
      BitVec.ofNat 8 payload.length] ++ payload)

/-- R203: a rejected command writes no register, loses its `4 + LEN` bytes, and gets the 4-byte response, whether it
names a command that fails a check or none. -/
def Obligations.RejectionChangesNoRegister : Prop :=
  ∀ (s : State) (rest : List Byte),
    (∀ i : Instr, decode s.cmdIn = .command i rest → Reference.verdict i s ≠ .ok →
      step s = .next { s with
        cmdIn := s.cmdIn.drop (4 + i.len)
        rspOut := s.rspOut ++ [(Reference.verdict i s).code, i.opcode, 0x00, 0x00] }) ∧
    (∀ op : Byte, decode s.cmdIn = .illegalOpcode op rest →
      ∃ n, s.cmdIn.length = 4 + n + rest.length ∧ n = (s.cmdIn.getD 2 0).toNat * 256 + (s.cmdIn.getD 3 0).toNat ∧
        step s = .next { s with
          cmdIn := s.cmdIn.drop (4 + n)
          rspOut := s.rspOut ++ [0x01, op, 0x00, 0x00] })

/-- A well-formed command never gets a header error (R63 (2), (3), R67, R69). -/
def Obligations.WellFormedCommandsPassTheHeaderChecks : Prop :=
  ∀ (i : Instr) (s : State), i.wellFormed = true →
    ∃ t st rsp, exec i s = .next t ∧ t.rspOut = s.rspOut ++ (st :: i.opcode :: rsp) ∧
      st ≠ Status.errOpcode.code ∧ st ≠ Status.errFormat.code ∧ st ≠ Status.errLength.code

/-! ## Flags and status -/

/-- R28: the flags after a command, the whole table, and none written by a rejected one. -/
def Obligations.FlagsFollowTheFlagTable : Prop :=
  ∀ (i : Instr) (s : State), ∃ t, exec i s = .next t ∧
    Reference.flagsOf t = if Reference.verdict i s = .ok then Reference.flagsAfter i s else Reference.flagsOf s

/-- R25: the fields of `STATUS`. -/
def Obligations.StatusMirrorsTheFlags : Prop :=
  ∀ s : State, (statusByte s).toNat % 4 = (match s.owner with | .none => 0 | .hash => 1 | .mac => 2) ∧
    (statusByte s).getLsbD 2 = s.ckeyv ∧ (statusByte s).getLsbD 3 = s.noncev ∧ (statusByte s).getLsbD 4 = s.mkeyv ∧
    (statusByte s).getLsbD 5 = s.tagv ∧ (statusByte s).getLsbD 6 = s.vok ∧ (statusByte s).getLsbD 7 = false

/-- R190: `RDSTAT` answers `STATUS` in every state and writes no register. -/
def Obligations.RdstatAnswersStatus : Prop :=
  ∀ s : State,
    exec (.rdstat 0 []) s = .next { s with rspOut := s.rspOut ++ [0x00, 0x30, 0x00, 0x01, statusByte s] } ∧
    (statusByte s).getLsbD 7 = false ∧ (statusByte s).toNat % 4 ≠ 3 ∧
    (∀ r p, r ≠ 0 → exec (.rdstat r p) s = .next (Reference.rejectedWith 0x02 0x30 s)) ∧
    (∀ p, p.length ≠ 0 → exec (.rdstat 0 p) s = .next (Reference.rejectedWith 0x03 0x30 s))

/-! ## Hash Engine -/

/-- R110 with R106: `SHA_INIT` from every state, and its two header errors. -/
def Obligations.ShaInitStartsAFreshHash : Prop :=
  ∀ s : State,
    exec (.shaInit 0 []) s = .next { s with
      he := { h := #v[0x6a09e667, 0xbb67ae85, 0x3c6ef372, 0xa54ff53a, 0x510e527f, 0x9b05688c, 0x1f83d9ab, 0x5be0cd19]
              buf := Vector.replicate 64 0
              bufLen := 0
              bitLen := 0 }
      owner := .hash
      rspOut := s.rspOut ++ [0x00, 0x01, 0x00, 0x00] } ∧
    (∀ r p, r ≠ 0 → exec (.shaInit r p) s = .next (Reference.rejectedWith 0x02 0x01 s)) ∧
    (∀ p, p.length ≠ 0 → exec (.shaInit 0 p) s = .next (Reference.rejectedWith 0x03 0x01 s))

/-- R111 with R107: `SHA_UPDATE` compresses the whole blocks of the waiting bytes and the payload, and leaves the
rest waiting; its errors. The premise on the buffer is R16 (b). -/
def Obligations.ShaUpdateAbsorbsItsPayload : Prop :=
  ∀ (s : State) (p : List Byte),
    (s.owner = .hash → s.he.bitLen.toNat + 8 * p.length < 2 ^ 64 → s.he.bufClear →
      exec (.shaUpdate 0 p) s = .next { s with
        he := Reference.absorb s.he p
        rspOut := s.rspOut ++ [0x00, 0x02, 0x00, 0x00] }) ∧
    (∀ r, r ≠ 0 → exec (.shaUpdate r p) s = .next (Reference.rejectedWith 0x02 0x02 s)) ∧
    (s.owner ≠ .hash → exec (.shaUpdate 0 p) s = .next (Reference.rejectedWith 0x05 0x02 s)) ∧
    (s.owner = .hash → 2 ^ 64 ≤ s.he.bitLen.toNat + 8 * p.length →
      exec (.shaUpdate 0 p) s = .next (Reference.rejectedWith 0x06 0x02 s))

/-- R112 with R108 and R109: `SHA_FINAL` pads, answers the digest and releases the engine; its errors. The premise on
the buffer is R16 (b). -/
def Obligations.ShaFinalAnswersTheDigest : Prop :=
  ∀ s : State,
    (s.owner = .hash → s.he.bufClear →
      exec (.shaFinal 0 []) s = .next { s with
        he := Reference.released (Reference.finishWords s.he)
        owner := .none
        rspOut := s.rspOut ++ ([0x00, 0x03, 0x00, 0x20] ++ (digestBytes (Reference.finishWords s.he)).toList) }) ∧
    (∀ r p, r ≠ 0 → exec (.shaFinal r p) s = .next (Reference.rejectedWith 0x02 0x03 s)) ∧
    (∀ p, p.length ≠ 0 → exec (.shaFinal 0 p) s = .next (Reference.rejectedWith 0x03 0x03 s)) ∧
    (s.owner ≠ .hash → exec (.shaFinal 0 []) s = .next (Reference.rejectedWith 0x05 0x03 s))

/-- R113: cutting a message over two updates changes no register. -/
def Obligations.CuttingAnUpdateDoesNotMatter : Prop :=
  ∀ (s : State) (p q : List Byte), s.owner = .hash → s.he.bitLen.toNat + 8 * (p ++ q).length < 2 ^ 64 →
    ∃ t u v, exec (.shaUpdate 0 p) s = .next t ∧ exec (.shaUpdate 0 q) t = .next u ∧
      exec (.shaUpdate 0 (p ++ q)) s = .next v ∧ u = { v with rspOut := u.rspOut }

/-- R113, R114: from any state, the digest of a streamed message is SHA-256 of the pieces put together, whatever
the pieces are. -/
def Obligations.StreamedHashIsSha256 : Prop :=
  ∀ (s : State) (pieces : List (List Byte)), 8 * pieces.flatten.length < 2 ^ 64 →
    ∃ t, execAll ([.shaInit 0 []] ++ pieces.map (.shaUpdate 0) ++ [.shaFinal 0 []]) s = .next t ∧
      t = { s with
        he := Reference.released (Reference.sha256Words pieces.flatten)
        owner := .none
        rspOut := s.rspOut ++ ([0x00, 0x01, 0x00, 0x00] ++ (pieces.map fun _ => [0x00, 0x02, 0x00, 0x00]).flatten
          ++ [0x00, 0x03, 0x00, 0x20] ++ (Reference.sha256 pieces.flatten).toList) }

/-- R84: the pseudo-instruction `SHA256 m` answers SHA-256 of `m` last, from any state. -/
def Obligations.PseudoSha256ComputesSha256 : Prop :=
  ∀ (s : State) (m : List Byte), 8 * m.length < 2 ^ 64 →
    ∃ t before, execAll (pseudoSha256 m) s = .next t ∧
      t.rspOut = s.rspOut ++ before ++ [0x00, 0x03, 0x00, 0x20] ++ (Reference.sha256 m).toList

/-- R250: `MA_INIT`, or `MA_SETKEY` with a key over 64 bytes, destroys a hash in progress. -/
def Obligations.MacCommandsDestroyAHash : Prop :=
  ∀ (i : Instr) (s : State), Reference.verdict i s = .ok → s.owner = .hash →
    (i = .maInit 0 [] ∨ ∃ k, i = .maSetkey 0 k ∧ 64 < k.length) →
    ∃ t, exec i s = .next t ∧ t.owner ≠ .hash ∧
      (∀ p, exec (.shaUpdate 0 p) t = .next { t with rspOut := t.rspOut ++ [0x05, 0x02, 0x00, 0x00] }) ∧
      exec (.shaFinal 0 []) t = .next { t with rspOut := t.rspOut ++ [0x05, 0x03, 0x00, 0x00] }

/-- R251: `SHA_INIT`, or `MA_SETKEY` with a key of any length, destroys a MAC in progress; a second `MA_INIT` restarts
it, so that what follows is as if it had come after the second alone. -/
def Obligations.CommandsDestroyAMac : Prop :=
  ∀ s : State, s.owner = .mac → s.mkeyv = true →
    (∀ i, i = .shaInit 0 [] ∨ (∃ k, i = .maSetkey 0 k) →
      ∃ t, exec i s = .next t ∧ t.owner ≠ .mac ∧
        (∀ p, exec (.maUpdate 0 p) t = .next { t with rspOut := t.rspOut ++ [0x05, 0x22, 0x00, 0x00] }) ∧
        exec (.maFinal 0 []) t = .next { t with rspOut := t.rspOut ++ [0x05, 0x23, 0x00, 0x00] } ∧
        exec (.maFinalx 0 []) t = .next { t with rspOut := t.rspOut ++ [0x05, 0x24, 0x00, 0x00] }) ∧
    (∀ s' : State, s'.k0 = s.k0 → s'.mkeyv = true → ∃ t t', exec (.maInit 0 []) s = .next t ∧
      exec (.maInit 0 []) s' = .next t' ∧ t.he = t'.he ∧ t.owner = t'.owner)

/-- R257: a final ends the stream: what continues it is rejected, and nothing else changes; the MAC key stays
loaded. -/
def Obligations.FinalsEndTheStream : Prop :=
  ∀ s : State,
    (s.owner = .hash → ∃ t, exec (.shaFinal 0 []) s = .next t ∧
      (∀ p, exec (.shaUpdate 0 p) t = .next { t with rspOut := t.rspOut ++ [0x05, 0x02, 0x00, 0x00] }) ∧
      exec (.shaFinal 0 []) t = .next { t with rspOut := t.rspOut ++ [0x05, 0x03, 0x00, 0x00] }) ∧
    (s.owner = .mac → ∀ i, i = .maFinal 0 [] ∨ i = .maFinalx 0 [] → ∃ t, exec i s = .next t ∧
      t.k0 = s.k0 ∧ t.mkeyv = s.mkeyv ∧
      (∀ p, exec (.maUpdate 0 p) t = .next { t with rspOut := t.rspOut ++ [0x05, 0x22, 0x00, 0x00] }) ∧
      exec (.maFinal 0 []) t = .next { t with rspOut := t.rspOut ++ [0x05, 0x23, 0x00, 0x00] } ∧
      exec (.maFinalx 0 []) t = .next { t with rspOut := t.rspOut ++ [0x05, 0x24, 0x00, 0x00] })

/-- R250, R251: the commands that are harmless to a hash or a MAC in progress leave the engine as it is. -/
def Obligations.HarmlessCommandsKeepTheEngine : Prop :=
  ∀ (s : State) (i : Instr) (r : Byte) (p : List Byte),
    (i = .ccSetkey r p ∨ i = .ccSetnonce r p ∨ i = .ccBlock r p ∨ i = .ccCrypt r p ∨ i = .maVerify r p ∨
      i = .rdstat r p ∨ (i = .maSetkey r p ∧ p.length ≤ 64 ∧ s.owner ≠ .mac)) →
    ∃ t, exec i s = .next t ∧ t.he = s.he ∧ t.owner = s.owner

/-! ## Stream Cipher -/

/-- R140 with R72: the key words, little-endian, and nothing else; its header errors. -/
def Obligations.CcSetkeyLoadsTheKey : Prop :=
  ∀ (s : State) (p : List Byte),
    (p.length = 32 →
      exec (.ccSetkey 0 p) s = .next { s with
        key := Vector.ofFn fun i => Reference.le32At p i.val
        ckeyv := true
        rspOut := s.rspOut ++ [0x00, 0x10, 0x00, 0x00] }) ∧
    (∀ r, r ≠ 0 → exec (.ccSetkey r p) s = .next (Reference.rejectedWith 0x02 0x10 s)) ∧
    (p.length ≠ 32 → exec (.ccSetkey 0 p) s = .next (Reference.rejectedWith 0x03 0x10 s))

/-- R141 with R72: the nonce words, little-endian, and nothing else; its header errors. -/
def Obligations.CcSetnonceLoadsTheNonce : Prop :=
  ∀ (s : State) (p : List Byte),
    (p.length = 12 →
      exec (.ccSetnonce 0 p) s = .next { s with
        nonce := Vector.ofFn fun i => Reference.le32At p i.val
        noncev := true
        rspOut := s.rspOut ++ [0x00, 0x11, 0x00, 0x00] }) ∧
    (∀ r, r ≠ 0 → exec (.ccSetnonce r p) s = .next (Reference.rejectedWith 0x02 0x11 s)) ∧
    (p.length ≠ 12 → exec (.ccSetnonce 0 p) s = .next (Reference.rejectedWith 0x03 0x11 s))

/-- R142: the keystream block of the little-endian counter; no register is written; its errors. -/
def Obligations.CcBlockAnswersTheKeystreamBlock : Prop :=
  ∀ (s : State) (p : List Byte),
    (p.length = 4 → s.ckeyv = true → s.noncev = true →
      exec (.ccBlock 0 p) s = .next { s with
        rspOut := s.rspOut ++ ([0x00, 0x12, 0x00, 0x40]
          ++ (ccKeystreamBlock s.key s.nonce (Reference.le32At p 0)).toList) }) ∧
    (∀ r, r ≠ 0 → exec (.ccBlock r p) s = .next (Reference.rejectedWith 0x02 0x12 s)) ∧
    (p.length ≠ 4 → exec (.ccBlock 0 p) s = .next (Reference.rejectedWith 0x03 0x12 s)) ∧
    (p.length = 4 → s.ckeyv = false ∨ s.noncev = false →
      exec (.ccBlock 0 p) s = .next (Reference.rejectedWith 0x04 0x12 s))

/-- R143 with R145: output byte `i` of `CC_CRYPT` is the input byte and the keystream byte at its position, the
keystream starting at counter 0; no register is written; its errors. -/
def Obligations.CcCryptIsPositionWise : Prop :=
  ∀ (s : State) (p : List Byte), p.length ≤ 65535 →
    (s.ckeyv = true → s.noncev = true →
      exec (.ccCrypt 0 p) s = .next { s with
        rspOut := s.rspOut ++ ([0x00, 0x13, BitVec.ofNat 8 (p.length / 256), BitVec.ofNat 8 p.length]
          ++ (List.range p.length).map (Reference.cryptByte s p)) }) ∧
    (∀ r, r ≠ 0 → exec (.ccCrypt r p) s = .next (Reference.rejectedWith 0x02 0x13 s)) ∧
    (s.ckeyv = false ∨ s.noncev = false → exec (.ccCrypt 0 p) s = .next (Reference.rejectedWith 0x04 0x13 s))

/-- R144: decryption is encryption of the output under the same key and nonce. -/
def Obligations.CcCryptRoundTrips : Prop :=
  ∀ (s : State) (p : List Byte), p.length ≤ 65535 → s.ckeyv = true → s.noncev = true →
    ∃ t u out, exec (.ccCrypt 0 p) s = .next t ∧ out.length = p.length ∧
      t.rspOut = s.rspOut ++ ([0x00, 0x13, BitVec.ofNat 8 (p.length / 256), BitVec.ofNat 8 p.length] ++ out) ∧
      exec (.ccCrypt 0 out) t = .next u ∧
      u.rspOut = t.rspOut ++ ([0x00, 0x13, BitVec.ofNat 8 (p.length / 256), BitVec.ofNat 8 p.length] ++ p)

/-- R85, R86: the pseudo-instructions of the cipher answer from any state, with the key and the nonce they are
given; decryption is the same sequence, and an input of more than 65535 bytes has no expansion. -/
def Obligations.PseudoCipherCallsUseTheirOperands : Prop :=
  ∀ (s : State) (key nonce input : List Byte) (ctr : Word), key.length = 32 → nonce.length = 12 →
    ∃ t k n before, k = Vector.ofFn (fun i : Fin 8 => Reference.le32At key i.val) ∧
      n = Vector.ofFn (fun i : Fin 3 => Reference.le32At nonce i.val) ∧
      execAll (pseudoCcKsblock key nonce ctr) s = .next t ∧
      t.rspOut = s.rspOut ++ before ++ [0x00, 0x12, 0x00, 0x40] ++ (ccKeystreamBlock k n ctr).toList ∧
      (input.length ≤ 65535 → ∃ cmds u, pseudoCcEncrypt key nonce input = some cmds ∧
        pseudoCcDecrypt key nonce input = some cmds ∧ execAll cmds s = .next u ∧
        u.rspOut = s.rspOut ++ before
          ++ [0x00, 0x13, BitVec.ofNat 8 (input.length / 256), BitVec.ofNat 8 input.length]
          ++ (List.range input.length).map (Reference.cryptByte { s with key := k, nonce := n } input)) ∧
      (65535 < input.length → pseudoCcEncrypt key nonce input = none ∧ pseudoCcDecrypt key nonce input = none)

/-- R90, R241: a 32-byte digest loaded as both keys is the cipher key's words and, unhashed, the MAC key block. -/
def Obligations.OneDigestLoadsBothKeys : Prop :=
  ∀ (s : State) (d : List Byte), d.length = 32 →
    ∃ t, execAll (pseudoLoadDigest d) s = .next t ∧ t.ckeyv = true ∧ t.mkeyv = true ∧
      (∀ i : Fin 8, t.key[i] = Reference.le32At d i.val) ∧ t.k0.toList = d ++ List.replicate 32 0

/-- R90, R241: `DERIVEKEYS secret` from any state loads SHA-256 of the secret, of any length, as both keys. -/
def Obligations.DeriveKeysLoadsTheDigestOfTheSecret : Prop :=
  ∀ (s : State) (secret : List Byte), 8 * secret.length < 2 ^ 64 →
    ∃ t, callDeriveKeys secret s = .next t ∧ t.ckeyv = true ∧ t.mkeyv = true ∧
      (∀ i : Fin 8, t.key[i] = Reference.le32At (Reference.sha256 secret).toList i.val) ∧
      t.k0.toList = (Reference.sha256 secret).toList ++ List.replicate 32 0

/-- A byte string on `CMD_IN` can carry every command of every expansion (R60, R84 to R89). -/
def Obligations.PseudoExpansionsAreEncodable : Prop :=
  ∀ m key nonce data text : List Byte, ∀ ctr : Word, key.length ≤ 65535 → nonce.length ≤ 65535 →
    text.length ≤ 65535 →
    (∀ i ∈ pseudoSha256 m, i.encodable = true) ∧ (∀ i ∈ pseudoCcKsblock key nonce ctr, i.encodable = true) ∧
    (∀ cmds, pseudoCcEncrypt key nonce data = some cmds → ∀ i ∈ cmds, i.encodable = true) ∧
    (∀ cmds, pseudoHmac m data = some cmds → ∀ i ∈ cmds, i.encodable = true) ∧
    (∀ cmds, pseudoHmacHex m data = some cmds → ∀ i ∈ cmds, i.encodable = true) ∧
    (∀ i ∈ pseudoHmacVerify data text, i.encodable = true)

/-! ## Message Authenticator -/

/-- R170 for a key of at most 64 bytes: zero-padded unhashed; only a MAC in progress is abandoned. Its one error, for
a key of any length. -/
def Obligations.MaSetkeyLoadsAShortKey : Prop :=
  ∀ (s : State) (p : List Byte),
    (p.length ≤ 64 →
      exec (.maSetkey 0 p) s = .next { s with
        he := if s.owner = .mac then Reference.released s.he.h else s.he
        owner := if s.owner = .mac then .none else s.owner
        k0 := Vector.ofFn fun i => (p ++ List.replicate (64 - p.length) 0).getD i.val 0
        mkeyv := true
        tagv := false
        vok := false
        rspOut := s.rspOut ++ [0x00, 0x20, 0x00, 0x00] }) ∧
    (∀ r, r ≠ 0 → exec (.maSetkey r p) s = .next (Reference.rejectedWith 0x02 0x20 s))

/-- R170 with R161 for a longer key: its SHA-256 digest, zero-padded; the engine was used and is released. -/
def Obligations.MaSetkeyHashesALongKey : Prop :=
  ∀ (s : State) (p : List Byte), 64 < p.length → p.length ≤ 65535 →
    exec (.maSetkey 0 p) s = .next { s with
      he := Reference.released (Reference.sha256Words p)
      owner := .none
      k0 := Vector.ofFn fun i => ((Reference.sha256 p).toList ++ List.replicate 32 0).getD i.val 0
      mkeyv := true
      tagv := false
      vok := false
      rspOut := s.rspOut ++ [0x00, 0x20, 0x00, 0x00] }

/-- R171: the chaining value after the inner pad, an empty buffer, 512 bits counted; its errors. -/
def Obligations.MaInitAbsorbsTheInnerPad : Prop :=
  ∀ s : State,
    (s.mkeyv = true →
      exec (.maInit 0 []) s = .next { s with
        he := { h := compress sha256IV (Vector.ofFn fun i => s.k0[i] ^^^ 0x36)
                buf := Vector.replicate 64 0
                bufLen := 0
                bitLen := 512 }
        owner := .mac
        tagv := false
        vok := false
        rspOut := s.rspOut ++ [0x00, 0x21, 0x00, 0x00] }) ∧
    (∀ r p, r ≠ 0 → exec (.maInit r p) s = .next (Reference.rejectedWith 0x02 0x21 s)) ∧
    (∀ p, p.length ≠ 0 → exec (.maInit 0 p) s = .next (Reference.rejectedWith 0x03 0x21 s)) ∧
    (s.mkeyv = false → exec (.maInit 0 []) s = .next (Reference.rejectedWith 0x04 0x21 s))

/-- R172 with R107: `MA_UPDATE`, as `SHA_UPDATE` on an engine held by the MAC; its errors. The premise on the buffer
is R16 (b). -/
def Obligations.MaUpdateAbsorbsItsPayload : Prop :=
  ∀ (s : State) (p : List Byte),
    (s.owner = .mac → s.he.bitLen.toNat + 8 * p.length < 2 ^ 64 → s.he.bufClear →
      exec (.maUpdate 0 p) s = .next { s with
        he := Reference.absorb s.he p
        rspOut := s.rspOut ++ [0x00, 0x22, 0x00, 0x00] }) ∧
    (∀ r, r ≠ 0 → exec (.maUpdate r p) s = .next (Reference.rejectedWith 0x02 0x22 s)) ∧
    (s.owner ≠ .mac → exec (.maUpdate 0 p) s = .next (Reference.rejectedWith 0x05 0x22 s)) ∧
    (s.owner = .mac → 2 ^ 64 ≤ s.he.bitLen.toNat + 8 * p.length →
      exec (.maUpdate 0 p) s = .next (Reference.rejectedWith 0x06 0x22 s))

/-- R173: the tag is SHA-256 of the outer pad and the inner digest; it is kept and answered, and the engine is
released; the errors. The premise on the buffer is R16 (b). -/
def Obligations.MaFinalAnswersTheTag : Prop :=
  ∀ s : State,
    (s.owner = .mac → s.he.bufClear →
      let outer := s.k0.toList.map (· ^^^ 0x5C) ++ (digestBytes (Reference.finishWords s.he)).toList
      exec (.maFinal 0 []) s = .next { s with
        he := Reference.released (Reference.sha256Words outer)
        owner := .none
        tag := Reference.sha256 outer
        tagv := true
        vok := false
        rspOut := s.rspOut ++ ([0x00, 0x23, 0x00, 0x20] ++ (Reference.sha256 outer).toList) }) ∧
    (∀ r p, r ≠ 0 → exec (.maFinal r p) s = .next (Reference.rejectedWith 0x02 0x23 s)) ∧
    (∀ p, p.length ≠ 0 → exec (.maFinal 0 p) s = .next (Reference.rejectedWith 0x03 0x23 s)) ∧
    (s.owner ≠ .mac → exec (.maFinal 0 []) s = .next (Reference.rejectedWith 0x05 0x23 s))

/-- R174 with R163: as R173, with the tag's text in the response: 64 lower-case hexadecimal characters, high nibble
first; the errors. -/
def Obligations.MaFinalxAnswersTheTagAsText : Prop :=
  ∀ s : State,
    (s.owner = .mac →
      ∃ t u text, exec (.maFinalx 0 []) s = .next t ∧ exec (.maFinal 0 []) s = .next u ∧
        t = { u with rspOut := s.rspOut ++ ([0x00, 0x24, 0x00, 0x40] ++ text) } ∧ text.length = 64 ∧
        (∀ c ∈ text, (0x30 ≤ c ∧ c ≤ 0x39) ∨ (0x61 ≤ c ∧ c ≤ 0x66)) ∧
        ∀ i : Fin 32, text[2 * i.val]? = some (hexDigit (BitVec.ofNat 8 (t.tag[i].toNat / 16))) ∧
          text[2 * i.val + 1]? = some (hexDigit (BitVec.ofNat 8 (t.tag[i].toNat % 16)))) ∧
    (∀ r p, r ≠ 0 → exec (.maFinalx r p) s = .next (Reference.rejectedWith 0x02 0x24 s)) ∧
    (∀ p, p.length ≠ 0 → exec (.maFinalx 0 p) s = .next (Reference.rejectedWith 0x03 0x24 s)) ∧
    (s.owner ≠ .mac → exec (.maFinalx 0 []) s = .next (Reference.rejectedWith 0x05 0x24 s))

/-- R175 with R164: a received text matches when it has 64 characters that fold to the tag's text; the result is the
payload byte and `VOK`, and nothing else changes; the errors. -/
def Obligations.MaVerifyComparesTheText : Prop :=
  ∀ (s : State) (p : List Byte),
    (s.tagv = true → ∃ ok : Bool,
      exec (.maVerify 0 p) s = .next { s with
        vok := ok
        rspOut := s.rspOut ++ [0x00, 0x25, 0x00, 0x01, if ok then 0x01 else 0x00] } ∧
      (ok = true ↔ p.length = 64 ∧ ∀ i < 64, ∀ b x, p[i]? = some b → (hexText s.tag.toList)[i]? = some x →
        (if 0x41 ≤ b.toNat ∧ b.toNat ≤ 0x5A then b.toNat + 0x20 else b.toNat) = x.toNat)) ∧
    (∀ r, r ≠ 0 → exec (.maVerify r p) s = .next (Reference.rejectedWith 0x02 0x25 s)) ∧
    (s.tagv = false → exec (.maVerify 0 p) s = .next (Reference.rejectedWith 0x05 0x25 s))

/-- R162, R161: from any state, after `MA_SETKEY k`, `MA_INIT`, the data in any pieces and `MA_FINAL`, the tag is
HMAC-SHA256 of the key and the data. -/
def Obligations.MacSequenceComputesHmac : Prop :=
  ∀ (s : State) (k : List Byte) (pieces : List (List Byte)), k.length ≤ 65535 →
    8 * (64 + pieces.flatten.length) < 2 ^ 64 →
    ∃ t before, execAll ([.maSetkey 0 k, .maInit 0 []] ++ pieces.map (.maUpdate 0) ++ [.maFinal 0 []]) s = .next t ∧
      t.tag = Reference.hmac k pieces.flatten ∧ t.tagv = true ∧ t.owner = .none ∧
      t.rspOut = s.rspOut ++ before ++ [0x00, 0x23, 0x00, 0x20] ++ (Reference.hmac k pieces.flatten).toList

/-- R176: after a `MA_FINALX` its own text verifies, also with letters in upper case, and no other text does. -/
def Obligations.SignedTextVerifies : Prop :=
  ∀ s : State, s.owner = .mac →
    ∃ t text, exec (.maFinalx 0 []) s = .next t ∧
      t.rspOut = s.rspOut ++ ([0x00, 0x24, 0x00, 0x40] ++ text) ∧
      ∀ p : List Byte, ∃ u, exec (.maVerify 0 p) t = .next u ∧
        u.rspOut = t.rspOut ++ [0x00, 0x25, 0x00, 0x01, if Reference.sameUpToCase p text then 0x01 else 0x00]

/-- R177: a long key and its digest load the same key block. -/
def Obligations.LongKeyLoadsAsItsDigest : Prop :=
  ∀ (s : State) (k : List Byte), 64 < k.length → k.length ≤ 65535 →
    ∃ t u, exec (.maSetkey 0 k) s = .next t ∧ exec (.maSetkey 0 (Reference.sha256 k).toList) s = .next u ∧
      t.k0 = u.k0

/-- R87, R88: `HMAC` and `HMAC_HEX` answer the tag and its text last, from any state and for a key of any length; a key
of at most 65535 bytes has a pure expansion, and a longer one has none and is replaced by its digest first. -/
def Obligations.PseudoHmacComputesTheTag : Prop :=
  ∀ (s : State) (k data : List Byte), 8 * k.length < 2 ^ 64 → 8 * (64 + data.length) < 2 ^ 64 →
    (∃ t before, callHmac k data s = .next t ∧
      t.rspOut = s.rspOut ++ before ++ [0x00, 0x23, 0x00, 0x20] ++ (Reference.hmac k data).toList) ∧
    (∃ t before, callHmacHex k data s = .next t ∧
      t.rspOut = s.rspOut ++ before ++ [0x00, 0x24, 0x00, 0x40] ++ hexText (Reference.hmac k data).toList) ∧
    (k.length ≤ 65535 → ∃ cmds cmds', pseudoHmac k data = some cmds ∧ execAll cmds s = callHmac k data s ∧
      pseudoHmacHex k data = some cmds' ∧ execAll cmds' s = callHmacHex k data s) ∧
    (65535 < k.length → pseudoHmac k data = none ∧ pseudoHmacHex k data = none ∧
      ∃ t, execAll (pseudoSha256 k) s = .next t ∧
        callHmac k data s = callHmac (Reference.sha256 k).toList data t ∧
        callHmacHex k data s = callHmacHex (Reference.sha256 k).toList data t)

/-- R89: `HMAC_VERIFY data, text` under a loaded key answers 0x01 exactly when the text is the tag's, up to case. -/
def Obligations.PseudoHmacVerifyChecksTheTag : Prop :=
  ∀ (s : State) (k data text : List Byte), k.length ≤ 65535 → s.mkeyv = true →
    s.k0.toList = Reference.keyBlock k → 8 * (64 + data.length) < 2 ^ 64 →
    ∃ t before, execAll (pseudoHmacVerify data text) s = .next t ∧
      t.rspOut = s.rspOut ++ before ++ [0x00, 0x25, 0x00, 0x01,
        if Reference.sameUpToCase text (hexText (Reference.hmac k data).toList) then 0x01 else 0x00]

/-! ## Frames -/

/-- R28, R29: the hash commands leave every register of the other two units, and what is left on `CMD_IN`, as they
were, accepted or not; `SHA_UPDATE` leaves `OWNER` too. -/
def Obligations.HashCommandsFrame : Prop :=
  ∀ (i : Instr) (r : Byte) (p : List Byte) (s t : State),
    (i = .shaInit r p ∨ i = .shaUpdate r p ∨ i = .shaFinal r p) → exec i s = .next t →
    t = { s with he := t.he, owner := t.owner, rspOut := t.rspOut } ∧
      (i = .shaUpdate r p → t.owner = s.owner) ∧ s.rspOut <+: t.rspOut

/-- R140, R141: loading a key or a nonce touches nothing of the other units, nor each other. -/
def Obligations.CipherLoadsFrame : Prop :=
  ∀ (r : Byte) (p : List Byte) (s t u : State), exec (.ccSetkey r p) s = .next t → exec (.ccSetnonce r p) s = .next u →
    t = { s with key := t.key, ckeyv := t.ckeyv, rspOut := t.rspOut } ∧ s.rspOut <+: t.rspOut ∧
    u = { s with nonce := u.nonce, noncev := u.noncev, rspOut := u.rspOut } ∧ s.rspOut <+: u.rspOut

/-- R142, R143, R190: `CC_BLOCK`, `CC_CRYPT` and `RDSTAT` write no register at all. -/
def Obligations.ReadingCommandsFrame : Prop :=
  ∀ (i : Instr) (r : Byte) (p : List Byte) (s t : State),
    (i = .ccBlock r p ∨ i = .ccCrypt r p ∨ i = .rdstat r p) → exec i s = .next t →
    t = { s with rspOut := t.rspOut } ∧ s.rspOut <+: t.rspOut

/-- R28, R29, R170 to R175: the authenticator's commands leave the cipher's registers and `CMD_IN` as they were;
all but `MA_SETKEY` leave the key block; all but `MA_FINAL` and `MA_FINALX` leave `TAG`; `MA_UPDATE` leaves every
register but the engine's; `MA_VERIFY` leaves every register but `VOK`. -/
def Obligations.AuthenticatorFrame : Prop :=
  ∀ (i : Instr) (r : Byte) (p : List Byte) (s t : State), exec i s = .next t →
    (i = .maSetkey r p → t = { s with he := t.he, owner := t.owner, k0 := t.k0, mkeyv := t.mkeyv, tagv := t.tagv,
                                      vok := t.vok, rspOut := t.rspOut }) ∧
    (i = .maInit r p → t = { s with he := t.he, owner := t.owner, tagv := t.tagv, vok := t.vok,
                                    rspOut := t.rspOut }) ∧
    (i = .maUpdate r p → t = { s with he := t.he, rspOut := t.rspOut }) ∧
    (i = .maFinal r p ∨ i = .maFinalx r p → t = { s with he := t.he, owner := t.owner, tag := t.tag, tagv := t.tagv,
                                                         vok := t.vok, rspOut := t.rspOut }) ∧
    (i = .maVerify r p → t = { s with vok := t.vok, rspOut := t.rspOut })

/-- R17, R18, R20, R32: `KEY`, `NONCE` and `K0` are changed only by the command that loads each. -/
def Obligations.OnlyLoadsWriteTheKeys : Prop :=
  ∀ s t : State, step s = .next t →
    (t.key ≠ s.key → ∃ p rest, s.fetch = .command (.ccSetkey 0 p) rest) ∧
    (t.nonce ≠ s.nonce → ∃ p rest, s.fetch = .command (.ccSetnonce 0 p) rest) ∧
    (t.k0 ≠ s.k0 → ∃ p rest, s.fetch = .command (.maSetkey 0 p) rest)

/-- R32: the cipher's key and nonce reach the outside through `CC_BLOCK` and `CC_CRYPT` alone. Two states that differ
in them answer every other command alike, and still differ in nothing else. -/
def Obligations.KeyAndNonceLeaveOnlyThroughTheCipher : Prop :=
  ∀ (i : Instr) (s t : State) (k : Vector Word 8) (n : Vector Word 3),
    (∀ r p, i ≠ .ccBlock r p ∧ i ≠ .ccCrypt r p) → exec i s = .next t →
    ∃ k' n', exec i { s with key := k, nonce := n } = .next { t with key := k', nonce := n' }

/-- R32: the MAC key block reaches the outside through `MA_INIT` and the two finals alone. -/
def Obligations.MacKeyLeavesOnlyThroughTheMac : Prop :=
  ∀ (i : Instr) (s t : State) (k : Vector Byte 64),
    (∀ r p, i ≠ .maInit r p ∧ i ≠ .maFinal r p ∧ i ≠ .maFinalx r p) → exec i s = .next t →
    ∃ k', exec i { s with k0 := k } = .next { t with k0 := k' }
end

