-- ==== Sys2Proof/Laws/Bytes.lean ====
section
/-! SUPPORT. Lengths and number facts of the byte-string helpers: headers, responses, texts, pads, keystream. -/

namespace Sys2Proof

@[simp] theorem toBE16_length (n : Nat) : (toBE16 n).length = 2 := rfl

theorem be16_lt (b0 b1 : Byte) : be16 b0 b1 < 65536 := by
  have := b0.isLt; have := b1.isLt; simp only [be16]; omega

/-- Reading back a written `LEN` field. -/
theorem be16_of_toBE16 (n : Nat) (h : n ≤ Config.maxPayload) :
    be16 (BitVec.ofNat 8 (n / 256)) (BitVec.ofNat 8 n) = n := by
  simp only [be16, BitVec.toNat_ofNat, Config.maxPayload] at *; omega

/-- Writing back a read `LEN` field. -/
theorem toBE16_be16 (b0 b1 : Byte) : toBE16 (be16 b0 b1) = [b0, b1] := by
  have h0 := b0.isLt
  have h1 := b1.isLt
  simp only [toBE16, be16, List.cons.injEq, and_true]
  constructor <;> apply BitVec.eq_of_toNat_eq <;> simp only [BitVec.toNat_ofNat] <;> omega

namespace Machine

@[simp] theorem responseBytes_length (st : Status) (op : Byte) (pl : List Byte) :
    (responseBytes st op pl).length = 4 + pl.length := by
  simp [responseBytes]; omega

/-- A rejection's response is its four header bytes (R203 (c)). -/
theorem responseBytes_nil (st : Status) (op : Byte) : responseBytes st op [] = [st.code, op, 0, 0] := rfl

/-- The response's first four bytes give its status, its echo and its payload's length, so a response determines
the payload that follows. -/
theorem responseBytes_eq (st : Status) (op : Byte) (pl : List Byte) :
    responseBytes st op pl
      = [st.code, op, BitVec.ofNat 8 (pl.length / 256), BitVec.ofNat 8 pl.length] ++ pl := rfl

/-- The status names have seven different codes (R200). -/
theorem Status.code_injective (a b : Status) (h : a.code = b.code) : a = b := by
  revert h; cases a <;> cases b <;> decide

@[simp] theorem hexText_length (s : List Byte) : (hexText s).length = 2 * s.length := by
  induction s with
  | nil => rfl
  | cons b s ih => simp only [hexText, List.flatMap_cons, List.length_append] at *; simp; omega

@[simp] theorem padBlock_length (k0 : Vector Byte 64) (c : Byte) : (padBlock k0 c).length = 64 := by
  simp [padBlock]

@[simp] theorem zeroPadded_getElem (s : List Byte) (i : Nat) (h : i < 64) : (zeroPadded s)[i] = s.getD i 0 := by
  simp [zeroPadded]

@[simp] theorem keyOperand_getElem (p : List Byte) (i : Nat) (h : i < 8) : (keyOperand p)[i] = payloadWord p i := by
  simp [keyOperand]

@[simp] theorem nonceOperand_getElem (p : List Byte) (i : Nat) (h : i < 3) :
    (nonceOperand p)[i] = payloadWord p i := by
  simp [nonceOperand]

/-- The XOR of `nb` blocks gives as many bytes as the input has, if the blocks cover it (R143). -/
theorem ccXorBlocks_length (key : Vector Word 8) (nonce : Vector Word 3) (nb j : Nat) (p : List Byte)
    (h : p.length ≤ 64 * nb) : (ccXorBlocks key nonce nb j p).length = p.length := by
  induction nb generalizing j p with
  | zero => simp only [ccXorBlocks, List.length_nil]; omega
  | succ nb ih =>
    simp only [ccXorBlocks, List.length_append, List.length_zipWith, List.length_take, Vector.length_toList]
    rw [ih _ _ (by simp; omega)]
    simp only [List.length_drop]; omega

@[simp] theorem ccCryptBytes_length (key : Vector Word 8) (nonce : Vector Word 3) (p : List Byte) :
    (ccCryptBytes key nonce p).length = p.length :=
  ccXorBlocks_length key nonce _ _ p (by omega)

end Machine

end Sys2Proof
end

