-- ==== Sys2Proof/Laws/Decode.lean ====
section
/-! SUPPORT. Framing and selection: what the decoder does with a header and its payload. -/

namespace Sys2Proof

/-- A header followed by its whole payload is one frame, whatever follows (R62). -/
theorem frameCommand_whole (b0 b1 b2 b3 : Byte) (p rest : List Byte) (h : p.length = be16 b2 b3) :
    frameCommand (b0 :: b1 :: b2 :: b3 :: (p ++ rest))
      = some { opcode := b0, rsv := b1, payload := p, rest := rest } := by
  simp [frameCommand, ← h]

/-- A frame was cut from exactly its header, its payload and what follows (R61, R62). -/
theorem frameCommand_eq_some (bs : List Byte) (f : Frame) (h : frameCommand bs = some f) :
    ∃ b2 b3, bs = f.opcode :: f.rsv :: b2 :: b3 :: (f.payload ++ f.rest) ∧ f.payload.length = be16 b2 b3 := by
  match bs, h with
  | b0 :: b1 :: b2 :: b3 :: more, h =>
    simp only [frameCommand] at h
    split at h
    · cases h
    · rename_i enough
      cases h
      exact ⟨b2, b3, by simp, by simp; omega⟩

/-- No frame exactly when the command at the front is not whole (R57). -/
theorem frameCommand_eq_none (bs : List Byte) :
    frameCommand bs = none ↔
      bs.length < 4 ∨ ∃ b0 b1 b2 b3 more, bs = b0 :: b1 :: b2 :: b3 :: more ∧ more.length < be16 b2 b3 := by
  match bs with
  | [] => simp [frameCommand]
  | [_] => simp [frameCommand]
  | [_, _] => simp [frameCommand]
  | [_, _, _] => simp [frameCommand]
  | b0 :: b1 :: b2 :: b3 :: more => simp [frameCommand]

/-- More bytes behind a whole command change only what follows it (R41). -/
theorem frameCommand_append (bs more : List Byte) (f : Frame) (h : frameCommand bs = some f) :
    frameCommand (bs ++ more) = some { f with rest := f.rest ++ more } := by
  obtain ⟨b2, b3, rfl, hlen⟩ := frameCommand_eq_some bs f h
  simpa using frameCommand_whole f.opcode f.rsv b2 b3 f.payload (f.rest ++ more) hlen

/-- The opcode bytes of R66. -/
def legalOpcodes : List Byte :=
  [0x01, 0x02, 0x03, 0x10, 0x11, 0x12, 0x13, 0x20, 0x21, 0x22, 0x23, 0x24, 0x25, 0x30]

/-- No two rows of the opcode map have one opcode. -/
theorem opcodeTable_opcodes_nodup : (opcodeTable.map Prod.fst).Nodup := by decide

theorem opcodeTable_opcodes : opcodeTable.map Prod.fst = legalOpcodes := rfl

/-- Nothing is selected exactly by the opcodes outside the map (R68). -/
theorem selectCommand_eq_none (op rsv : Byte) (p : List Byte) :
    selectCommand op rsv p = none ↔ op ∉ legalOpcodes := by
  simp only [selectCommand, Option.map_eq_none_iff, List.find?_eq_none, beq_iff_eq, ← opcodeTable_opcodes,
    List.mem_map, not_exists, not_and]

/-- A selected command has the header's opcode, `rsv` byte and payload. -/
theorem selectCommand_eq_some (op rsv : Byte) (p : List Byte) (i : Instr) (h : selectCommand op rsv p = some i) :
    i.opcode = op ∧ i.rsv = rsv ∧ i.payload = p := by
  obtain ⟨row, hrow, rfl⟩ := Option.map_eq_some_iff.mp h
  have hop := List.find?_some hrow
  have hmem := List.mem_of_find?_eq_some hrow
  simp only [beq_iff_eq] at hop
  subst hop
  simp only [opcodeTable, List.mem_cons, List.not_mem_nil, or_false] at hmem
  rcases hmem with rfl | rfl | rfl | rfl | rfl | rfl | rfl | rfl | rfl | rfl | rfl | rfl | rfl | rfl <;>
    exact ⟨rfl, rfl, rfl⟩

/-- A command selects itself by its opcode. -/
theorem selectCommand_self (i : Instr) : selectCommand i.opcode i.rsv i.payload = some i := by
  cases i <;> rfl

end Sys2Proof
end

