-- ==== Sys2Proof/Laws/State.lean ====
section
/-! SUPPORT. What each named update of the state does to each field: one lemma per field per update. -/

namespace Sys2Proof.Machine

variable (s : State)

@[simp] theorem State.takeCommand_he (rest : List Byte) : (s.takeCommand rest).he = s.he := rfl
@[simp] theorem State.takeCommand_owner (rest : List Byte) : (s.takeCommand rest).owner = s.owner := rfl
@[simp] theorem State.takeCommand_key (rest : List Byte) : (s.takeCommand rest).key = s.key := rfl
@[simp] theorem State.takeCommand_nonce (rest : List Byte) : (s.takeCommand rest).nonce = s.nonce := rfl
@[simp] theorem State.takeCommand_ckeyv (rest : List Byte) : (s.takeCommand rest).ckeyv = s.ckeyv := rfl
@[simp] theorem State.takeCommand_noncev (rest : List Byte) : (s.takeCommand rest).noncev = s.noncev := rfl
@[simp] theorem State.takeCommand_k0 (rest : List Byte) : (s.takeCommand rest).k0 = s.k0 := rfl
@[simp] theorem State.takeCommand_mkeyv (rest : List Byte) : (s.takeCommand rest).mkeyv = s.mkeyv := rfl
@[simp] theorem State.takeCommand_tag (rest : List Byte) : (s.takeCommand rest).tag = s.tag := rfl
@[simp] theorem State.takeCommand_tagv (rest : List Byte) : (s.takeCommand rest).tagv = s.tagv := rfl
@[simp] theorem State.takeCommand_vok (rest : List Byte) : (s.takeCommand rest).vok = s.vok := rfl
@[simp] theorem State.takeCommand_cmdIn (rest : List Byte) : (s.takeCommand rest).cmdIn = rest := rfl
@[simp] theorem State.takeCommand_rspOut (rest : List Byte) : (s.takeCommand rest).rspOut = s.rspOut := rfl

@[simp] theorem State.emit_he (st : Status) (op : Byte) (pl : List Byte) : (s.emit st op pl).he = s.he := rfl
@[simp] theorem State.emit_owner (st : Status) (op : Byte) (pl : List Byte) : (s.emit st op pl).owner = s.owner := rfl
@[simp] theorem State.emit_key (st : Status) (op : Byte) (pl : List Byte) : (s.emit st op pl).key = s.key := rfl
@[simp] theorem State.emit_nonce (st : Status) (op : Byte) (pl : List Byte) : (s.emit st op pl).nonce = s.nonce := rfl
@[simp] theorem State.emit_ckeyv (st : Status) (op : Byte) (pl : List Byte) : (s.emit st op pl).ckeyv = s.ckeyv := rfl
@[simp] theorem State.emit_noncev (st : Status) (op : Byte) (pl : List Byte) : (s.emit st op pl).noncev = s.noncev := rfl
@[simp] theorem State.emit_k0 (st : Status) (op : Byte) (pl : List Byte) : (s.emit st op pl).k0 = s.k0 := rfl
@[simp] theorem State.emit_mkeyv (st : Status) (op : Byte) (pl : List Byte) : (s.emit st op pl).mkeyv = s.mkeyv := rfl
@[simp] theorem State.emit_tag (st : Status) (op : Byte) (pl : List Byte) : (s.emit st op pl).tag = s.tag := rfl
@[simp] theorem State.emit_tagv (st : Status) (op : Byte) (pl : List Byte) : (s.emit st op pl).tagv = s.tagv := rfl
@[simp] theorem State.emit_vok (st : Status) (op : Byte) (pl : List Byte) : (s.emit st op pl).vok = s.vok := rfl
@[simp] theorem State.emit_cmdIn (st : Status) (op : Byte) (pl : List Byte) : (s.emit st op pl).cmdIn = s.cmdIn := rfl
@[simp] theorem State.emit_rspOut (st : Status) (op : Byte) (pl : List Byte) : (s.emit st op pl).rspOut = s.rspOut ++ responseBytes st op pl := rfl

@[simp] theorem State.reject_he (e : Status) (op : Byte) : (s.reject e op).he = s.he := rfl
@[simp] theorem State.reject_owner (e : Status) (op : Byte) : (s.reject e op).owner = s.owner := rfl
@[simp] theorem State.reject_key (e : Status) (op : Byte) : (s.reject e op).key = s.key := rfl
@[simp] theorem State.reject_nonce (e : Status) (op : Byte) : (s.reject e op).nonce = s.nonce := rfl
@[simp] theorem State.reject_ckeyv (e : Status) (op : Byte) : (s.reject e op).ckeyv = s.ckeyv := rfl
@[simp] theorem State.reject_noncev (e : Status) (op : Byte) : (s.reject e op).noncev = s.noncev := rfl
@[simp] theorem State.reject_k0 (e : Status) (op : Byte) : (s.reject e op).k0 = s.k0 := rfl
@[simp] theorem State.reject_mkeyv (e : Status) (op : Byte) : (s.reject e op).mkeyv = s.mkeyv := rfl
@[simp] theorem State.reject_tag (e : Status) (op : Byte) : (s.reject e op).tag = s.tag := rfl
@[simp] theorem State.reject_tagv (e : Status) (op : Byte) : (s.reject e op).tagv = s.tagv := rfl
@[simp] theorem State.reject_vok (e : Status) (op : Byte) : (s.reject e op).vok = s.vok := rfl
@[simp] theorem State.reject_cmdIn (e : Status) (op : Byte) : (s.reject e op).cmdIn = s.cmdIn := rfl
@[simp] theorem State.reject_rspOut (e : Status) (op : Byte) : (s.reject e op).rspOut = s.rspOut ++ responseBytes e op [] := rfl

@[simp] theorem State.setHash_he (he : HashRegs) (o : Owner) : (s.setHash he o).he = he := rfl
@[simp] theorem State.setHash_owner (he : HashRegs) (o : Owner) : (s.setHash he o).owner = o := rfl
@[simp] theorem State.setHash_key (he : HashRegs) (o : Owner) : (s.setHash he o).key = s.key := rfl
@[simp] theorem State.setHash_nonce (he : HashRegs) (o : Owner) : (s.setHash he o).nonce = s.nonce := rfl
@[simp] theorem State.setHash_ckeyv (he : HashRegs) (o : Owner) : (s.setHash he o).ckeyv = s.ckeyv := rfl
@[simp] theorem State.setHash_noncev (he : HashRegs) (o : Owner) : (s.setHash he o).noncev = s.noncev := rfl
@[simp] theorem State.setHash_k0 (he : HashRegs) (o : Owner) : (s.setHash he o).k0 = s.k0 := rfl
@[simp] theorem State.setHash_mkeyv (he : HashRegs) (o : Owner) : (s.setHash he o).mkeyv = s.mkeyv := rfl
@[simp] theorem State.setHash_tag (he : HashRegs) (o : Owner) : (s.setHash he o).tag = s.tag := rfl
@[simp] theorem State.setHash_tagv (he : HashRegs) (o : Owner) : (s.setHash he o).tagv = s.tagv := rfl
@[simp] theorem State.setHash_vok (he : HashRegs) (o : Owner) : (s.setHash he o).vok = s.vok := rfl
@[simp] theorem State.setHash_cmdIn (he : HashRegs) (o : Owner) : (s.setHash he o).cmdIn = s.cmdIn := rfl
@[simp] theorem State.setHash_rspOut (he : HashRegs) (o : Owner) : (s.setHash he o).rspOut = s.rspOut := rfl

@[simp] theorem State.absorb_he (p : List Byte) : (s.absorb p).he = heAbsorb s.he p := rfl
@[simp] theorem State.absorb_owner (p : List Byte) : (s.absorb p).owner = s.owner := rfl
@[simp] theorem State.absorb_key (p : List Byte) : (s.absorb p).key = s.key := rfl
@[simp] theorem State.absorb_nonce (p : List Byte) : (s.absorb p).nonce = s.nonce := rfl
@[simp] theorem State.absorb_ckeyv (p : List Byte) : (s.absorb p).ckeyv = s.ckeyv := rfl
@[simp] theorem State.absorb_noncev (p : List Byte) : (s.absorb p).noncev = s.noncev := rfl
@[simp] theorem State.absorb_k0 (p : List Byte) : (s.absorb p).k0 = s.k0 := rfl
@[simp] theorem State.absorb_mkeyv (p : List Byte) : (s.absorb p).mkeyv = s.mkeyv := rfl
@[simp] theorem State.absorb_tag (p : List Byte) : (s.absorb p).tag = s.tag := rfl
@[simp] theorem State.absorb_tagv (p : List Byte) : (s.absorb p).tagv = s.tagv := rfl
@[simp] theorem State.absorb_vok (p : List Byte) : (s.absorb p).vok = s.vok := rfl
@[simp] theorem State.absorb_cmdIn (p : List Byte) : (s.absorb p).cmdIn = s.cmdIn := rfl
@[simp] theorem State.absorb_rspOut (p : List Byte) : (s.absorb p).rspOut = s.rspOut := rfl

@[simp] theorem State.loadKey_he (k : Vector Word 8) : (s.loadKey k).he = s.he := rfl
@[simp] theorem State.loadKey_owner (k : Vector Word 8) : (s.loadKey k).owner = s.owner := rfl
@[simp] theorem State.loadKey_key (k : Vector Word 8) : (s.loadKey k).key = k := rfl
@[simp] theorem State.loadKey_nonce (k : Vector Word 8) : (s.loadKey k).nonce = s.nonce := rfl
@[simp] theorem State.loadKey_ckeyv (k : Vector Word 8) : (s.loadKey k).ckeyv = true := rfl
@[simp] theorem State.loadKey_noncev (k : Vector Word 8) : (s.loadKey k).noncev = s.noncev := rfl
@[simp] theorem State.loadKey_k0 (k : Vector Word 8) : (s.loadKey k).k0 = s.k0 := rfl
@[simp] theorem State.loadKey_mkeyv (k : Vector Word 8) : (s.loadKey k).mkeyv = s.mkeyv := rfl
@[simp] theorem State.loadKey_tag (k : Vector Word 8) : (s.loadKey k).tag = s.tag := rfl
@[simp] theorem State.loadKey_tagv (k : Vector Word 8) : (s.loadKey k).tagv = s.tagv := rfl
@[simp] theorem State.loadKey_vok (k : Vector Word 8) : (s.loadKey k).vok = s.vok := rfl
@[simp] theorem State.loadKey_cmdIn (k : Vector Word 8) : (s.loadKey k).cmdIn = s.cmdIn := rfl
@[simp] theorem State.loadKey_rspOut (k : Vector Word 8) : (s.loadKey k).rspOut = s.rspOut := rfl

@[simp] theorem State.loadNonce_he (n : Vector Word 3) : (s.loadNonce n).he = s.he := rfl
@[simp] theorem State.loadNonce_owner (n : Vector Word 3) : (s.loadNonce n).owner = s.owner := rfl
@[simp] theorem State.loadNonce_key (n : Vector Word 3) : (s.loadNonce n).key = s.key := rfl
@[simp] theorem State.loadNonce_nonce (n : Vector Word 3) : (s.loadNonce n).nonce = n := rfl
@[simp] theorem State.loadNonce_ckeyv (n : Vector Word 3) : (s.loadNonce n).ckeyv = s.ckeyv := rfl
@[simp] theorem State.loadNonce_noncev (n : Vector Word 3) : (s.loadNonce n).noncev = true := rfl
@[simp] theorem State.loadNonce_k0 (n : Vector Word 3) : (s.loadNonce n).k0 = s.k0 := rfl
@[simp] theorem State.loadNonce_mkeyv (n : Vector Word 3) : (s.loadNonce n).mkeyv = s.mkeyv := rfl
@[simp] theorem State.loadNonce_tag (n : Vector Word 3) : (s.loadNonce n).tag = s.tag := rfl
@[simp] theorem State.loadNonce_tagv (n : Vector Word 3) : (s.loadNonce n).tagv = s.tagv := rfl
@[simp] theorem State.loadNonce_vok (n : Vector Word 3) : (s.loadNonce n).vok = s.vok := rfl
@[simp] theorem State.loadNonce_cmdIn (n : Vector Word 3) : (s.loadNonce n).cmdIn = s.cmdIn := rfl
@[simp] theorem State.loadNonce_rspOut (n : Vector Word 3) : (s.loadNonce n).rspOut = s.rspOut := rfl

@[simp] theorem State.loadMacKey_he (k : Vector Byte 64) : (s.loadMacKey k).he = s.he := rfl
@[simp] theorem State.loadMacKey_owner (k : Vector Byte 64) : (s.loadMacKey k).owner = s.owner := rfl
@[simp] theorem State.loadMacKey_key (k : Vector Byte 64) : (s.loadMacKey k).key = s.key := rfl
@[simp] theorem State.loadMacKey_nonce (k : Vector Byte 64) : (s.loadMacKey k).nonce = s.nonce := rfl
@[simp] theorem State.loadMacKey_ckeyv (k : Vector Byte 64) : (s.loadMacKey k).ckeyv = s.ckeyv := rfl
@[simp] theorem State.loadMacKey_noncev (k : Vector Byte 64) : (s.loadMacKey k).noncev = s.noncev := rfl
@[simp] theorem State.loadMacKey_k0 (k : Vector Byte 64) : (s.loadMacKey k).k0 = k := rfl
@[simp] theorem State.loadMacKey_mkeyv (k : Vector Byte 64) : (s.loadMacKey k).mkeyv = true := rfl
@[simp] theorem State.loadMacKey_tag (k : Vector Byte 64) : (s.loadMacKey k).tag = s.tag := rfl
@[simp] theorem State.loadMacKey_tagv (k : Vector Byte 64) : (s.loadMacKey k).tagv = false := rfl
@[simp] theorem State.loadMacKey_vok (k : Vector Byte 64) : (s.loadMacKey k).vok = false := rfl
@[simp] theorem State.loadMacKey_cmdIn (k : Vector Byte 64) : (s.loadMacKey k).cmdIn = s.cmdIn := rfl
@[simp] theorem State.loadMacKey_rspOut (k : Vector Byte 64) : (s.loadMacKey k).rspOut = s.rspOut := rfl

@[simp] theorem State.openMac_he : s.openMac.he = heAbsorb heInit (padBlock s.k0 Config.innerPad) := rfl
@[simp] theorem State.openMac_owner : s.openMac.owner = .mac := rfl
@[simp] theorem State.openMac_key : s.openMac.key = s.key := rfl
@[simp] theorem State.openMac_nonce : s.openMac.nonce = s.nonce := rfl
@[simp] theorem State.openMac_ckeyv : s.openMac.ckeyv = s.ckeyv := rfl
@[simp] theorem State.openMac_noncev : s.openMac.noncev = s.noncev := rfl
@[simp] theorem State.openMac_k0 : s.openMac.k0 = s.k0 := rfl
@[simp] theorem State.openMac_mkeyv : s.openMac.mkeyv = s.mkeyv := rfl
@[simp] theorem State.openMac_tag : s.openMac.tag = s.tag := rfl
@[simp] theorem State.openMac_tagv : s.openMac.tagv = false := rfl
@[simp] theorem State.openMac_vok : s.openMac.vok = false := rfl
@[simp] theorem State.openMac_cmdIn : s.openMac.cmdIn = s.cmdIn := rfl
@[simp] theorem State.openMac_rspOut : s.openMac.rspOut = s.rspOut := rfl

@[simp] theorem State.closeMac_he : s.closeMac.he = (macFinish s.k0 s.he).2 := by simp only [State.closeMac]
@[simp] theorem State.closeMac_owner : s.closeMac.owner = .none := by simp only [State.closeMac]
@[simp] theorem State.closeMac_key : s.closeMac.key = s.key := by simp only [State.closeMac]
@[simp] theorem State.closeMac_nonce : s.closeMac.nonce = s.nonce := by simp only [State.closeMac]
@[simp] theorem State.closeMac_ckeyv : s.closeMac.ckeyv = s.ckeyv := by simp only [State.closeMac]
@[simp] theorem State.closeMac_noncev : s.closeMac.noncev = s.noncev := by simp only [State.closeMac]
@[simp] theorem State.closeMac_k0 : s.closeMac.k0 = s.k0 := by simp only [State.closeMac]
@[simp] theorem State.closeMac_mkeyv : s.closeMac.mkeyv = s.mkeyv := by simp only [State.closeMac]
@[simp] theorem State.closeMac_tag : s.closeMac.tag = (macFinish s.k0 s.he).1 := by simp only [State.closeMac]
@[simp] theorem State.closeMac_tagv : s.closeMac.tagv = true := by simp only [State.closeMac]
@[simp] theorem State.closeMac_vok : s.closeMac.vok = false := by simp only [State.closeMac]
@[simp] theorem State.closeMac_cmdIn : s.closeMac.cmdIn = s.cmdIn := by simp only [State.closeMac]
@[simp] theorem State.closeMac_rspOut : s.closeMac.rspOut = s.rspOut := by simp only [State.closeMac]

@[simp] theorem State.setVok_he (ok : Bool) : (s.setVok ok).he = s.he := rfl
@[simp] theorem State.setVok_owner (ok : Bool) : (s.setVok ok).owner = s.owner := rfl
@[simp] theorem State.setVok_key (ok : Bool) : (s.setVok ok).key = s.key := rfl
@[simp] theorem State.setVok_nonce (ok : Bool) : (s.setVok ok).nonce = s.nonce := rfl
@[simp] theorem State.setVok_ckeyv (ok : Bool) : (s.setVok ok).ckeyv = s.ckeyv := rfl
@[simp] theorem State.setVok_noncev (ok : Bool) : (s.setVok ok).noncev = s.noncev := rfl
@[simp] theorem State.setVok_k0 (ok : Bool) : (s.setVok ok).k0 = s.k0 := rfl
@[simp] theorem State.setVok_mkeyv (ok : Bool) : (s.setVok ok).mkeyv = s.mkeyv := rfl
@[simp] theorem State.setVok_tag (ok : Bool) : (s.setVok ok).tag = s.tag := rfl
@[simp] theorem State.setVok_tagv (ok : Bool) : (s.setVok ok).tagv = s.tagv := rfl
@[simp] theorem State.setVok_vok (ok : Bool) : (s.setVok ok).vok = ok := rfl
@[simp] theorem State.setVok_cmdIn (ok : Bool) : (s.setVok ok).cmdIn = s.cmdIn := rfl
@[simp] theorem State.setVok_rspOut (ok : Bool) : (s.setVok ok).rspOut = s.rspOut := rfl

/-! The engine's registers after initialisation and release. -/

@[simp] theorem heInit_h : heInit.h = sha256IV := rfl
@[simp] theorem heInit_buf : heInit.buf = zeroBlock := rfl
@[simp] theorem heInit_bufLen : heInit.bufLen = 0 := rfl
@[simp] theorem heInit_bitLen : heInit.bitLen = 0 := rfl
@[simp] theorem heRelease_h (r : HashRegs) : (heRelease r).h = r.h := rfl
@[simp] theorem heRelease_buf (r : HashRegs) : (heRelease r).buf = zeroBlock := rfl
@[simp] theorem heRelease_bufLen (r : HashRegs) : (heRelease r).bufLen = 0 := rfl
@[simp] theorem heRelease_bitLen (r : HashRegs) : (heRelease r).bitLen = 0 := rfl
@[simp] theorem heFinish_digest (r : HashRegs) : (heFinish r).1 = digestBytes (heFinalWords r) := rfl
@[simp] theorem heFinish_h (r : HashRegs) : (heFinish r).2.h = heFinalWords r := rfl
@[simp] theorem heFinish_buf (r : HashRegs) : (heFinish r).2.buf = zeroBlock := rfl
@[simp] theorem heFinish_bufLen (r : HashRegs) : (heFinish r).2.bufLen = 0 := rfl
@[simp] theorem heFinish_bitLen (r : HashRegs) : (heFinish r).2.bitLen = 0 := rfl

end Sys2Proof.Machine
end

