-- ==== Sys2Proof/Laws/Exec.lean ====
section
/-! SUPPORT. What a command and a step can do, said once: the checks, the two outcomes of a command (rejected with the
status of the error matrix, or accepted with a response and a new state), and the three cases of a step. -/

namespace Sys2Proof.Machine

/-! ## The checks -/

@[simp] theorem firstError_nil : firstError [] = none := rfl
@[simp] theorem firstError_none (l : List (Option Status)) : firstError (none :: l) = firstError l := rfl
@[simp] theorem firstError_some (e : Status) (l : List (Option Status)) : firstError (some e :: l) = some e := rfl

/-- All checks pass exactly when each of them does. -/
theorem firstError_eq_none (l : List (Option Status)) : firstError l = none ↔ ∀ c ∈ l, c = none := by
  induction l with
  | nil => simp
  | cons c l ih => cases c <;> simp [ih]

/-- What decides a command is one of its checks. -/
theorem firstError_eq_some (l : List (Option Status)) (e : Status) (h : firstError l = some e) : some e ∈ l := by
  induction l with
  | nil => cases h
  | cons c l ih =>
    cases c with
    | none => exact List.mem_cons_of_mem _ (ih h)
    | some c => cases h; exact List.mem_cons_self

/-! ## Rejecting and accepting -/

theorem raise_next (e : Status) (op : Byte) (s : State) : raise e op s = .next (s.reject e op) := rfl

theorem accept_next (op : Byte) (pl : List Byte) (s : State) : accept op pl s = .next (s.emit .ok op pl) := rfl

/-- A rejection changes `RSP_OUT` alone, by four bytes (R203). -/
theorem State.reject_eq (e : Status) (op : Byte) (s : State) :
    s.reject e op = { s with rspOut := s.rspOut ++ [e.code, op, 0, 0] } := rfl

/-- The state an accepted command leaves, before its response is appended, and the response's payload. -/
def effect : Instr → State → State × List Byte
  | .shaInit _ _, s => (s.setHash heInit .hash, [])
  | .shaUpdate _ p, s => (s.absorb p, [])
  | .shaFinal _ _, s => (s.setHash (heFinish s.he).2 .none, (heFinish s.he).1.toList)
  | .ccSetkey _ p, s => (s.loadKey (keyOperand p), [])
  | .ccSetnonce _ p, s => (s.loadNonce (nonceOperand p), [])
  | .ccBlock _ p, s => (s, (ccKeystreamBlock s.key s.nonce (counterOperand p)).toList)
  | .ccCrypt _ p, s => (s, ccCryptBytes s.key s.nonce p)
  | .maSetkey _ p, s => ((macKeyEngine p s).loadMacKey (macKeyBlock p), [])
  | .maInit _ _, s => (s.openMac, [])
  | .maUpdate _ p, s => (s.absorb p, [])
  | .maFinal _ _, s => (s.closeMac, (macFinish s.k0 s.he).1.toList)
  | .maFinalx _ _, s => (s.closeMac, hexText (macFinish s.k0 s.he).1.toList)
  | .maVerify _ p, s => (s.setVok (matchesTag p s.tag), [if matchesTag p s.tag then 0x01 else 0x00])
  | .rdstat _ _, s => (s, [statusByte s])

/-- The checks each command makes, in the order of R202. -/
def checks : Instr → State → List (Option Status)
  | .shaInit r p, _ => [formatError r, lengthError p 0]
  | .shaUpdate r p, s => [formatError r, ownerError s .hash, overflowError s p]
  | .shaFinal r p, s => [formatError r, lengthError p 0, ownerError s .hash]
  | .ccSetkey r p, _ => [formatError r, lengthError p 32]
  | .ccSetnonce r p, _ => [formatError r, lengthError p 12]
  | .ccBlock r p, s => [formatError r, lengthError p 4, cipherInitError s]
  | .ccCrypt r _, s => [formatError r, cipherInitError s]
  | .maSetkey r _, _ => [formatError r]
  | .maInit r p, s => [formatError r, lengthError p 0, macInitError s]
  | .maUpdate r p, s => [formatError r, ownerError s .mac, overflowError s p]
  | .maFinal r p, s => [formatError r, lengthError p 0, ownerError s .mac]
  | .maFinalx r p, s => [formatError r, lengthError p 0, ownerError s .mac]
  | .maVerify r _, s => [formatError r, tagError s]
  | .rdstat r p, _ => [formatError r, lengthError p 0]

/-- Every command is the same shape: the first failing check rejects it, else its effect and its response. -/
theorem exec_eq (i : Instr) (s : State) :
    exec i s = match firstError (checks i s) with
      | some e => raise e i.opcode s
      | none => accept i.opcode (effect i s).2 (effect i s).1 := by
  cases i <;>
    simp only [exec, checks, effect, Instr.opcode, execShaInit, execShaUpdate, execShaFinal, execCcSetkey,
      execCcSetnonce, execCcBlock, execCcCrypt, execMaSetkey, execMaInit, execMaUpdate, execMaFinal, execMaFinalx,
      execMaVerify, execRdstat] <;>
    split <;> simp only [*]

/-- A command that passes its checks is accepted. -/
theorem exec_accepted (i : Instr) (s : State) (h : firstError (checks i s) = none) :
    exec i s = .next ((effect i s).1.emit .ok i.opcode (effect i s).2) := by
  rw [exec_eq, h]; rfl

/-- A command that fails a check is rejected with that check's status. -/
theorem exec_rejected (i : Instr) (s : State) (e : Status) (h : firstError (checks i s) = some e) :
    exec i s = .next (s.reject e i.opcode) := by
  rw [exec_eq, h]; rfl

/-- Every command answers a next state: rejected, with everything but `RSP_OUT` as before, or accepted. -/
theorem exec_cases (i : Instr) (s : State) :
    (∃ e, firstError (checks i s) = some e ∧ exec i s = .next (s.reject e i.opcode)) ∨
      (firstError (checks i s) = none ∧ exec i s = .next ((effect i s).1.emit .ok i.opcode (effect i s).2)) := by
  cases h : firstError (checks i s) with
  | none => exact .inr ⟨rfl, exec_accepted i s h⟩
  | some e => exact .inl ⟨e, rfl, exec_rejected i s e h⟩

/-- Every command answers a next state (R204). -/
theorem exec_next (i : Instr) (s : State) : ∃ t, exec i s = .next t := by
  obtain ⟨_, -, h⟩ | ⟨-, h⟩ := exec_cases i s <;> exact ⟨_, h⟩

/-- No command touches `CMD_IN`: the step has already taken the command from it (R54). -/
@[simp] theorem effect_cmdIn (i : Instr) (s : State) : (effect i s).1.cmdIn = s.cmdIn := by
  cases i <;> simp only [effect, macKeyEngine] <;> (repeat' split) <;> simp

/-- No command touches `RSP_OUT` but by its response. -/
@[simp] theorem effect_rspOut (i : Instr) (s : State) : (effect i s).1.rspOut = s.rspOut := by
  cases i <;> simp only [effect, macKeyEngine] <;> (repeat' split) <;> simp

/-! ## The step -/

/-- The three cases of a step: a hold, an illegal opcode, a command. -/
theorem step_cases (s : State) :
    (s.fetch = .incomplete ∧ step s = .next s) ∨
      (∃ op rest, s.fetch = .illegalOpcode op rest ∧ step s = .next ((s.takeCommand rest).reject .errOpcode op)) ∨
      (∃ i rest, s.fetch = .command i rest ∧ step s = exec i (s.takeCommand rest)) := by
  cases h : s.fetch with
  | incomplete => exact .inl ⟨rfl, by simp [step, h]⟩
  | illegalOpcode op rest => exact .inr (.inl ⟨op, rest, rfl, by simp [step, h, raise_next]⟩)
  | command i rest => exact .inr (.inr ⟨i, rest, rfl, by simp [step, h]⟩)

/-- Every step answers a next state (R204, R216). -/
theorem step_next (s : State) : ∃ t, step s = .next t := by
  obtain ⟨-, h⟩ | ⟨_, _, -, h⟩ | ⟨i, rest, -, h⟩ := step_cases s
  · exact ⟨_, h⟩
  · exact ⟨_, h⟩
  · exact h ▸ exec_next i _

/-- A run of commands is a run of its first part and then of its second. -/
theorem execAll_append (xs ys : List Instr) (s t : State) (h : execAll xs s = .next t) :
    execAll (xs ++ ys) s = execAll ys t := by
  induction xs generalizing s with
  | nil => cases h; rfl
  | cons i xs ih =>
    simp only [List.cons_append, execAll] at h ⊢
    split at h <;> first | exact ih _ h | cases h

end Sys2Proof.Machine
end

