-- ==== Sys2Proof/Laws/HashEngine.lean ====
section
/-! SUPPORT. The Hash Engine's micro-operations: what one byte and a byte string do to the engine's registers. -/

namespace Sys2Proof.Machine

/-- A byte with room left: it is stored and counted, and nothing else changes (R107). -/
theorem heAbsorbByte_room (r : HashRegs) (b : Byte) (h : r.bufLen.val < 63) :
    heAbsorbByte r b = { r with buf := r.buf.set r.bufLen b, bufLen := ⟨r.bufLen.val + 1, by omega⟩ } := by
  have room : r.bufLen.val + 1 < 64 := by omega
  simp only [heAbsorbByte, dif_pos room]

/-- The 64th byte: the block is compressed and the buffer emptied (R107). -/
theorem heAbsorbByte_full (r : HashRegs) (b : Byte) (h : r.bufLen.val = 63) :
    heAbsorbByte r b
      = { r with h := compress r.h (r.buf.set r.bufLen b), buf := zeroBlock, bufLen := 0 } := by
  simp [heAbsorbByte, h]

@[simp] theorem heAbsorbByte_bitLen (r : HashRegs) (b : Byte) : (heAbsorbByte r b).bitLen = r.bitLen := by
  simp only [heAbsorbByte]; split <;> rfl

/-- The fill count goes up by one modulo 64 (R13, R107). -/
theorem heAbsorbByte_bufLen (r : HashRegs) (b : Byte) :
    (heAbsorbByte r b).bufLen.val = (r.bufLen.val + 1) % 64 := by
  have := r.bufLen.isLt
  simp only [heAbsorbByte]; split
  · simp; omega
  · simp; omega

/-- A byte keeps the buffer zero above the fill count (R16 (b)). -/
theorem heAbsorbByte_bufClear (r : HashRegs) (b : Byte) (h : r.bufClear) : (heAbsorbByte r b).bufClear := by
  by_cases room : r.bufLen.val < 63
  · rw [heAbsorbByte_room r b room]
    intro i hi
    have hlt : r.bufLen.val < i.val := hi
    simp only [Fin.getElem_fin, Vector.getElem_set_ne _ _ (Nat.ne_of_lt hlt)]
    exact h i (Fin.le_of_lt hlt)
  · rw [heAbsorbByte_full r b (by omega)]
    intro i _
    simp [zeroBlock]

@[simp] theorem heAbsorbBytes_nil (r : HashRegs) : heAbsorbBytes r [] = r := rfl

@[simp] theorem heAbsorbBytes_cons (r : HashRegs) (b : Byte) (s : List Byte) :
    heAbsorbBytes r (b :: s) = heAbsorbBytes (heAbsorbByte r b) s := rfl

/-- Bytes are absorbed one at a time, so a cut does not matter (R107). -/
theorem heAbsorbBytes_append (r : HashRegs) (s₁ s₂ : List Byte) :
    heAbsorbBytes r (s₁ ++ s₂) = heAbsorbBytes (heAbsorbBytes r s₁) s₂ := by
  simp [heAbsorbBytes, List.foldl_append]

@[simp] theorem heAbsorbBytes_bitLen (r : HashRegs) (s : List Byte) : (heAbsorbBytes r s).bitLen = r.bitLen := by
  induction s generalizing r with
  | nil => rfl
  | cons b s ih => simp [ih]

theorem heAbsorbBytes_bufLen (r : HashRegs) (s : List Byte) :
    (heAbsorbBytes r s).bufLen.val = (r.bufLen.val + s.length) % 64 := by
  induction s generalizing r with
  | nil => simp only [heAbsorbBytes_nil, List.length_nil]; omega
  | cons b s ih => simp only [heAbsorbBytes_cons, ih, heAbsorbByte_bufLen, List.length_cons]; omega

theorem heAbsorbBytes_bufClear (r : HashRegs) (s : List Byte) (h : r.bufClear) : (heAbsorbBytes r s).bufClear := by
  induction s generalizing r with
  | nil => exact h
  | cons b s ih => exact ih _ (heAbsorbByte_bufClear r b h)

/-- What `HE_Absorb` does to the two counters and to the cleared bytes, in one statement (R107). -/
theorem heAbsorb_spec (r : HashRegs) (s : List Byte) :
    (heAbsorb r s).bitLen = r.bitLen + BitVec.ofNat 64 (8 * s.length) ∧
      (heAbsorb r s).bufLen.val = (r.bufLen.val + s.length) % 64 ∧
      (r.bufClear → (heAbsorb r s).bufClear) :=
  ⟨rfl, heAbsorbBytes_bufLen r s, heAbsorbBytes_bufClear r s⟩

theorem zeroBlock_getElem (i : Nat) (h : i < 64) : zeroBlock[i] = 0 := by simp [zeroBlock]

theorem heInit_bufClear : heInit.bufClear := fun i _ => zeroBlock_getElem i i.isLt

theorem heRelease_bufClear (r : HashRegs) : (heRelease r).bufClear := fun i _ => zeroBlock_getElem i i.isLt

/-- A finished engine is released: empty buffer, counters zero, the digest's words in `H` (R108, R109). -/
theorem heFinish_regs (r : HashRegs) :
    (heFinish r).2 = { h := heFinalWords r, buf := zeroBlock, bufLen := 0, bitLen := 0 } := rfl

/-- The two hashes of a MAC's end (R173), opened. -/
theorem macFinish_eq (k0 : Vector Byte 64) (r : HashRegs) :
    macFinish k0 r
      = heFinish (heAbsorb (heAbsorb heInit (padBlock k0 Config.outerPad)) (heFinish r).1.toList) := by
  unfold macFinish; rfl

/-- The padding's compressions (R108), opened. -/
theorem heFinalWords_eq (r : HashRegs) :
    heFinalWords r = if r.bufLen.val ≥ Config.padThreshold then
        compress (compress r.h (r.buf.set r.bufLen Config.padByte)) (withLength zeroBlock r.bitLen)
      else compress r.h (withLength (r.buf.set r.bufLen Config.padByte) r.bitLen) := by
  unfold heFinalWords; rfl

end Sys2Proof.Machine
end

