-- ==== Sys2Proof/Laws/PerInstr.lean ====
section
/-! SUPPORT. Statements for every command as a piece of the format, one lemma per constructor. -/

namespace Sys2Proof.Laws.Framing

/-- A command's encoding is its 4-byte header and its payload (R60), it starts with an opcode of the map (R66), and
that opcode selects the command (R63). -/
def Statement (i : Instr) : Prop :=
  (encode i).length = 4 + i.len ∧ i.opcode ∈ legalOpcodes ∧ (encode i).head? = some i.opcode ∧
    selectCommand i.opcode i.rsv i.payload = some i

/-- All that a constructor has to show is that its opcode is one of the map's. -/
theorem of_legal (i : Instr) (op : Byte) (hop : i.opcode = op) (h : op ∈ legalOpcodes) : Statement i :=
  ⟨by simp [encode, Instr.len]; omega, hop ▸ h, rfl, selectCommand_self i⟩

theorem shaInit (r : Byte) (p : List Byte) : Statement (.shaInit r p) := of_legal _ opShaInit rfl (by decide)
theorem shaUpdate (r : Byte) (p : List Byte) : Statement (.shaUpdate r p) := of_legal _ opShaUpdate rfl (by decide)
theorem shaFinal (r : Byte) (p : List Byte) : Statement (.shaFinal r p) := of_legal _ opShaFinal rfl (by decide)
theorem ccSetkey (r : Byte) (p : List Byte) : Statement (.ccSetkey r p) := of_legal _ opCcSetkey rfl (by decide)
theorem ccSetnonce (r : Byte) (p : List Byte) : Statement (.ccSetnonce r p) := of_legal _ opCcSetnonce rfl (by decide)
theorem ccBlock (r : Byte) (p : List Byte) : Statement (.ccBlock r p) := of_legal _ opCcBlock rfl (by decide)
theorem ccCrypt (r : Byte) (p : List Byte) : Statement (.ccCrypt r p) := of_legal _ opCcCrypt rfl (by decide)
theorem maSetkey (r : Byte) (p : List Byte) : Statement (.maSetkey r p) := of_legal _ opMaSetkey rfl (by decide)
theorem maInit (r : Byte) (p : List Byte) : Statement (.maInit r p) := of_legal _ opMaInit rfl (by decide)
theorem maUpdate (r : Byte) (p : List Byte) : Statement (.maUpdate r p) := of_legal _ opMaUpdate rfl (by decide)
theorem maFinal (r : Byte) (p : List Byte) : Statement (.maFinal r p) := of_legal _ opMaFinal rfl (by decide)
theorem maFinalx (r : Byte) (p : List Byte) : Statement (.maFinalx r p) := of_legal _ opMaFinalx rfl (by decide)
theorem maVerify (r : Byte) (p : List Byte) : Statement (.maVerify r p) := of_legal _ opMaVerify rfl (by decide)
theorem rdstat (r : Byte) (p : List Byte) : Statement (.rdstat r p) := of_legal _ opRdstat rfl (by decide)

end Sys2Proof.Laws.Framing
end

