-- ==== Sys2Proof/Laws/Pseudo.lean ====
section
/-! SUPPORT. The pseudo-instructions: what a cut into pieces is, and what a call does that carries a digest. -/

namespace Sys2Proof.Machine

/-- The pieces put together are the string (section 5 of 30_encoding.md). -/
theorem cutPieces_flatten (fuel : Nat) (m : List Byte) (h : m.length ≤ fuel) : (cutPieces fuel m).flatten = m := by
  induction fuel generalizing m with
  | zero => simp [cutPieces, List.eq_nil_of_length_eq_zero (Nat.le_zero.mp h)]
  | succ fuel ih =>
    cases m with
    | nil => rfl
    | cons b m =>
      have hd : ((b :: m).drop Config.maxPayload).length ≤ fuel := by
        simp only [List.length_drop, List.length_cons, Config.maxPayload] at h ⊢; omega
      simp only [cutPieces, List.isEmpty_cons, Bool.false_eq_true, if_false, List.flatten_cons, ih _ hd,
        List.take_append_drop]

/-- A command can carry every piece. -/
theorem cutPieces_length (fuel : Nat) (m p : List Byte) (h : p ∈ cutPieces fuel m) : p.length ≤ Config.maxPayload := by
  induction fuel generalizing m with
  | zero => cases h
  | succ fuel ih =>
    simp only [cutPieces] at h
    split at h
    · cases h
    · obtain rfl | h := List.mem_cons.mp h
      · exact List.length_take_le _ _
      · exact ih _ h

@[simp] theorem chunks_flatten (m : List Byte) : (chunks m).flatten = m := cutPieces_flatten _ m (Nat.le_refl _)

theorem chunks_length (m p : List Byte) (h : p ∈ chunks m) : p.length ≤ Config.maxPayload := cutPieces_length _ m p h

/-- A run of commands answers a next state (R204). -/
theorem execAll_next (is : List Instr) (s : State) : ∃ t, execAll is s = .next t := by
  induction is generalizing s with
  | nil => exact ⟨s, rfl⟩
  | cons i is ih =>
    obtain ⟨t, h⟩ := exec_next i s
    simpa only [execAll, h] using ih t

/-- The digest is what the last response ends in. -/
theorem State.lastDigest_of_rspOut (s : State) (before : List Byte) (d : Vector Byte 32)
    (h : s.rspOut = before ++ d.toList) : s.lastDigest = d.toList := by
  simp [State.lastDigest, h]

/-- A call that carries a digest runs on from the state `SHA256` leaves. -/
theorem callWithDigest_next (m : List Byte) (next : List Byte → List Instr) (s t : State)
    (h : execAll (pseudoSha256 m) s = .next t) : callWithDigest m next s = execAll (next t.lastDigest) t := by
  simp only [callWithDigest, h]

end Sys2Proof.Machine
end

