-- ==== Sys2Proof/Tests/Slice0.lean ====
section
/-! SUPPORT. The model's own tests. Every expected value stands in spec/: a check value or an example of a rule, or a
vector of 95_test_vectors.md, named in the comment. After them, for every statement with hypotheses, a state and
operands that meet all of them together. -/

namespace Sys2Proof.Tests

open Sys2Proof Sys2Proof.Machine

/-! ## Helpers -/

/-- The state an outcome answers (the reset state where it answers none). -/
def after : Host.Outcome State Fault Refusal → State
  | .next s => s
  | .fault _ => State.reset
  | .refused _ => State.reset

/-- One step on these bytes from a state: the response bytes. -/
def reply (s : State) (bytes : List Byte) : List Byte := (after (step { s with cmdIn := bytes, rspOut := [] })).rspOut

/-- A hash open, keys loaded, a tag valid. -/
def hashOpen : State :=
  { State.reset with he := heInit, owner := .hash, ckeyv := true, noncev := true, mkeyv := true, tagv := true }

/-- A MAC open, nothing absorbed after the inner pad. -/
def macOpen : State :=
  { State.reset with
    he := { heInit with bitLen := 512 }
    owner := .mac
    ckeyv := true
    noncev := true
    mkeyv := true }

def jefe : List Byte := [0x4a, 0x65, 0x66, 0x65]

/-- The 28 bytes of "what do ya want for nothing?" (V-M2). -/
def nothing : List Byte :=
  [0x77, 0x68, 0x61, 0x74, 0x20, 0x64, 0x6f, 0x20, 0x79, 0x61, 0x20, 0x77, 0x61, 0x6e] ++
  [0x74, 0x20, 0x66, 0x6f, 0x72, 0x20, 0x6e, 0x6f, 0x74, 0x68, 0x69, 0x6e, 0x67, 0x3f]

/-- The state of V-M2 after its `MA_UPDATE`. -/
def vm2 : State :=
  { State.reset with
    he := { h := #v[0x655da7fa, 0xcc434b37, 0x5a1cd5cb, 0x0692ee0e, 0xa47a23d3, 0x4c3af449, 0xdba21ae2, 0x78c7500c]
            buf := zeroPadded nothing
            bufLen := 28
            bitLen := 736 }
    owner := .mac
    k0 := zeroPadded jefe
    mkeyv := true }

/-- The tag of V-M2. -/
def vm2Tag : List Byte :=
  [0x5b, 0xdc, 0xc1, 0x46, 0xbf, 0x60, 0x75, 0x4e, 0x6a, 0x04, 0x24, 0x26, 0x08, 0x95, 0x75, 0xc7] ++
  [0x5a, 0x00, 0x3f, 0x08, 0x9d, 0x27, 0x39, 0x83, 0x9d, 0xec, 0x58, 0xb9, 0x64, 0xec, 0x38, 0x43]

/-- The tag's text, V-M16: ASCII of "5bdcc146...3843". -/
def vm2Text : List Byte :=
  [0x35, 0x62, 0x64, 0x63, 0x63, 0x31, 0x34, 0x36, 0x62, 0x66, 0x36, 0x30, 0x37, 0x35, 0x34, 0x65] ++
  [0x36, 0x61, 0x30, 0x34, 0x32, 0x34, 0x32, 0x36, 0x30, 0x38, 0x39, 0x35, 0x37, 0x35, 0x63, 0x37] ++
  [0x35, 0x61, 0x30, 0x30, 0x33, 0x66, 0x30, 0x38, 0x39, 0x64, 0x32, 0x37, 0x33, 0x39, 0x38, 0x33] ++
  [0x39, 0x64, 0x65, 0x63, 0x35, 0x38, 0x62, 0x39, 0x36, 0x34, 0x65, 0x63, 0x33, 0x38, 0x34, 0x33]

/-- The text in upper case, V-M17 (as P3 prints it). -/
def vm2Upper : List Byte :=
  [0x35, 0x42, 0x44, 0x43, 0x43, 0x31, 0x34, 0x36, 0x42, 0x46, 0x36, 0x30, 0x37, 0x35, 0x34, 0x45] ++
  [0x36, 0x41, 0x30, 0x34, 0x32, 0x34, 0x32, 0x36, 0x30, 0x38, 0x39, 0x35, 0x37, 0x35, 0x43, 0x37] ++
  [0x35, 0x41, 0x30, 0x30, 0x33, 0x46, 0x30, 0x38, 0x39, 0x44, 0x32, 0x37, 0x33, 0x39, 0x38, 0x33] ++
  [0x39, 0x44, 0x45, 0x43, 0x35, 0x38, 0x42, 0x39, 0x36, 0x34, 0x45, 0x43, 0x33, 0x38, 0x34, 0x33]

/-- The state of V-M16 to V-M23. -/
def vm2Tagged : State :=
  { State.reset with
    mkeyv := true
    tagv := true
    tag := #v[0x5b, 0xdc, 0xc1, 0x46, 0xbf, 0x60, 0x75, 0x4e, 0x6a, 0x04, 0x24, 0x26, 0x08, 0x95, 0x75, 0xc7,
              0x5a, 0x00, 0x3f, 0x08, 0x9d, 0x27, 0x39, 0x83, 0x9d, 0xec, 0x58, 0xb9, 0x64, 0xec, 0x38, 0x43] }

/-! ## Well-formedness: one ill-formed term for each check -/

theorem test_wellFormed_ok : (Instr.ccBlock 0 [1, 0, 0, 0]).wellFormed = true := by decide
theorem test_wellFormed_refuses_rsv : (Instr.rdstat 1 []).wellFormed = false := by decide
theorem test_wellFormed_refuses_len0 : (Instr.shaInit 0 [0]).wellFormed = false := by decide
theorem test_wellFormed_refuses_len32 : (Instr.ccSetkey 0 (List.replicate 31 0)).wellFormed = false := by decide
theorem test_wellFormed_refuses_len12 : (Instr.ccSetnonce 0 (List.replicate 16 0)).wellFormed = false := by decide
theorem test_wellFormed_refuses_len4 : (Instr.ccBlock 0 []).wellFormed = false := by decide
theorem test_wellFormed_refuses_unencodable : (Instr.shaUpdate 0 (List.replicate 65536 0)).wellFormed = false := by
  decide +kernel

/-! ## Decoding: every row's word, written out from R61 and R66 -/

theorem test_decode_rows :
    [0x01000000, 0x02000000, 0x03000000, 0x10000000, 0x11000000, 0x12000000, 0x13000000].map (decodeTableWord 32)
      = [some (.shaInit 0 []), some (.shaUpdate 0 []), some (.shaFinal 0 []), some (.ccSetkey 0 []),
         some (.ccSetnonce 0 []), some (.ccBlock 0 []), some (.ccCrypt 0 [])] := by decide

theorem test_decode_rows_mac :
    [0x20000000, 0x21000000, 0x22000000, 0x23000000, 0x24000000, 0x25000000, 0x30000000].map (decodeTableWord 32)
      = [some (.maSetkey 0 []), some (.maInit 0 []), some (.maUpdate 0 []), some (.maFinal 0 []),
         some (.maFinalx 0 []), some (.maVerify 0 []), some (.rdstat 0 [])] := by decide

/-- R111's example with a byte behind it: `rsv`, big-endian `LEN`, payload and rest all told apart. -/
theorem test_decode_fields :
    decode [0x02, 0x05, 0x00, 0x03, 0x61, 0x62, 0x63, 0x30] = .command (.shaUpdate 0x05 [0x61, 0x62, 0x63]) [0x30] := by
  decide

/-- R46: `LEN` 01 00 is 256, so one byte is not enough. -/
theorem test_decode_len_big_endian : decode [0x02, 0x00, 0x01, 0x00, 0x00] = .incomplete := by decide

/-- V-S5: the neighbours of each assigned range are illegal. -/
theorem test_decode_illegal :
    [0x00000000, 0x04000000, 0x0f000000, 0x14000000, 0x26000000, 0x31000000, 0xff000000].map (decodeTableWord 32)
      = [none, none, none, none, none, none, none] := by decide

/-- The bytes of R141's example. -/
theorem test_encode_setnonce :
    encode (.ccSetnonce 0 [0, 0, 0, 9, 0, 0, 0, 0x4a, 0, 0, 0, 0])
      = [0x11, 0, 0, 0x0c, 0, 0, 0, 9, 0, 0, 0, 0x4a, 0, 0, 0, 0] := by decide

/-- A command placed for the next step is the one it takes. -/
theorem test_withFetchWord : (State.reset.withFetchWord 32 0x12000004).fetch = .command (.ccBlock 0 [0, 0, 0, 0]) [] := by
  decide

/-! ## Framing and errors (95_test_vectors.md section 6) -/

/-- V-S3, V-S4, V-S7: the priority of the header checks. -/
theorem test_priority :
    reply State.reset [0xff, 0xff, 0x00, 0x02, 0xaa, 0xbb] = [0x01, 0xff, 0x00, 0x00] ∧
    reply State.reset [0x7f, 0x55, 0x00, 0x03, 0x01, 0x02, 0x03] = [0x01, 0x7f, 0x00, 0x00] ∧
    reply State.reset [0x01, 0x01, 0x00, 0x01, 0x00] = [0x02, 0x01, 0x00, 0x00] := by decide

/-- V-S9, V-S10, V-S6. -/
theorem test_state_checks_last :
    reply State.reset [0x12, 0x00, 0x00, 0x05, 0, 0, 0, 0, 0] = [0x03, 0x12, 0x00, 0x00] ∧
    reply State.reset [0x02, 0x00, 0x00, 0x00] = [0x05, 0x02, 0x00, 0x00] ∧
    reply State.reset [0x30, 0x00, 0x00, 0x01, 0x00] = [0x03, 0x30, 0x00, 0x00] := by decide

/-- V-S11: one payload byte short, nothing happens. -/
theorem test_hold :
    let s := { State.reset with cmdIn := [0x02, 0x00, 0x00, 0x03, 0x61, 0x62] }
    s.holding = true ∧ after (step { s with vok := true }) = { s with vok := true } := by decide +kernel

/-! ## The algorithms' check values -/

/-- R101's check values. -/
theorem test_sigma_check_values :
    ssig0 0x00000001 = 0x02004000 ∧ ssig1 0x00000001 = 0x0000A000 ∧ bsig0 0x00000001 = 0x40080400 ∧
    bsig1 0x00000001 = 0x04200080 ∧ ssig0 0x80000000 = 0x11002000 ∧ ssig1 0x80000000 = 0x00205000 ∧
    bsig0 0x80000000 = 0x20040200 ∧ bsig1 0x80000000 = 0x02100040 := by decide

/-- R103: sixty-four constants, and the spot values of 95_test_vectors.md section 5. -/
theorem test_round_constants :
    sha256K.length = 64 ∧ sha256K.getD 1 0 = 0x71374491 ∧ sha256K.getD 62 0 = 0xbef9a3f7 := by decide

/-- R105's check value: round 0 of "abc". -/
theorem test_round_zero :
    shaRound { a := 0x6a09e667, b := 0xbb67ae85, c := 0x3c6ef372, d := 0xa54ff53a, e := 0x510e527f, f := 0x9b05688c,
               g := 0x1f83d9ab, h := 0x5be0cd19 } 0x428a2f98 0x61626380
      = { a := 0x5d6aebcd, b := 0x6a09e667, c := 0xbb67ae85, d := 0x3c6ef372, e := 0xfa2a4622, f := 0x510e527f,
          g := 0x9b05688c, h := 0x1f83d9ab } := by decide

/-- V-C5b: only words 2, 7, 8, 13 change. -/
theorem test_quarter_round :
    quarterRound
        #v[0x879531e0, 0xc5ecf37d, 0x516461b1, 0xc9a62f8a, 0x44c20ef3, 0x3390af7f, 0xd9fc690b, 0x2a5f714c,
           0x53372767, 0xb00a5631, 0x974c541a, 0x359e9963, 0x5c971061, 0x3d631689, 0x2098d9d6, 0x91dbd320] 2 7 8 13
      = #v[0x879531e0, 0xc5ecf37d, 0xbdb886dc, 0xc9a62f8a, 0x44c20ef3, 0x3390af7f, 0xd9fc690b, 0xcfacafd2,
           0xe46bea80, 0xb00a5631, 0x974c541a, 0x359e9963, 0x5c971061, 0xccc07c79, 0x2098d9d6, 0x91dbd320] := by
  decide +kernel

/-- R163's example: high nibble first, lower case. -/
theorem test_hex : hexText [0xb0, 0x34, 0x4c] = [0x62, 0x30, 0x33, 0x34, 0x34, 0x63] := by decide

/-! ## Hash Engine -/

/-- R110's example: response, `STATUS`, and V-H13's `H[0]`. -/
theorem test_shaInit :
    reply State.reset [0x01, 0x00, 0x00, 0x00] = [0x00, 0x01, 0x00, 0x00] ∧
    statusByte (after (exec (.shaInit 0 []) State.reset)) = 0x01 ∧
    (after (exec (.shaInit 0 []) State.reset)).he.h[0] = 0x6a09e667 := by decide

/-- R111's example, V-H14. -/
theorem test_shaUpdate :
    (after (exec (.shaUpdate 0 [0x61, 0x62, 0x63]) hashOpen)).he
      = { heInit with buf := zeroPadded [0x61, 0x62, 0x63], bufLen := 3, bitLen := 24 } := by decide +kernel

/-- V-H27, V-H28: overflow, and an empty update that is still accepted. -/
theorem test_shaUpdate_overflow :
    reply { hashOpen with he := { heInit with bufLen := 63, bitLen := 0xfffffffffffffff8 } } [0x02, 0, 0, 1, 0x61]
      = [0x06, 0x02, 0x00, 0x00] ∧
    reply { hashOpen with he := { heInit with bufLen := 63, bitLen := 0xfffffffffffffff8 } } [0x02, 0, 0, 0]
      = [0x00, 0x02, 0x00, 0x00] := by decide

/-- V-H2, V-H16: the digest of "abc", and the engine it leaves. -/
theorem test_shaFinal :
    let s := after (exec (.shaFinal 0 [])
      { hashOpen with he := { heInit with buf := zeroPadded [0x61, 0x62, 0x63], bufLen := 3, bitLen := 24 } })
    s.rspOut = [0x00, 0x03, 0x00, 0x20] ++
      [0xba, 0x78, 0x16, 0xbf, 0x8f, 0x01, 0xcf, 0xea, 0x41, 0x41, 0x40, 0xde, 0x5d, 0xae, 0x22, 0x23] ++
      [0xb0, 0x03, 0x61, 0xa3, 0x96, 0x17, 0x7a, 0x9c, 0xb4, 0x10, 0xff, 0x61, 0xf2, 0x00, 0x15, 0xad] ∧
    s.he.h[0] = 0xba7816bf ∧ s.he.bufLen = 0 ∧ s.owner = .none := by decide +kernel

/-- V-H23. -/
theorem test_shaFinal_sequence : reply State.reset [0x03, 0, 0, 0] = [0x05, 0x03, 0x00, 0x00] := by decide

/-! ## Stream Cipher -/

/-- R140's example: `KEY[0]`, `KEY[7]` of the key 00 01 ... 1f. -/
theorem test_ccSetkey :
    let s := after (exec (.ccSetkey 0 ((List.range 32).map (BitVec.ofNat 8))) State.reset)
    s.key[0] = 0x03020100 ∧ s.key[7] = 0x1f1e1d1c ∧ s.ckeyv = true ∧ s.rspOut = [0x00, 0x10, 0x00, 0x00] := by decide

/-- V-C15: 31 bytes. -/
theorem test_ccSetkey_length :
    reply State.reset (0x10 :: 0x00 :: 0x00 :: 0x1f :: List.replicate 31 0) = [0x03, 0x10, 0x00, 0x00] := by decide

/-- R141's example. -/
theorem test_ccSetnonce :
    let s := after (exec (.ccSetnonce 0 [0, 0, 0, 9, 0, 0, 0, 0x4a, 0, 0, 0, 0]) State.reset)
    s.nonce[0] = 0x09000000 ∧ s.nonce[1] = 0x4a000000 ∧ s.noncev = true := by decide

/-- V-C16: a 16-byte wire nonce is not accepted. -/
theorem test_ccSetnonce_length :
    reply State.reset (0x11 :: 0x00 :: 0x00 :: 0x10 :: List.replicate 16 0) = [0x03, 0x11, 0x00, 0x00] := by decide

/-- V-C3: the counter is little-endian; first bytes of the block of counter 0x01000000. -/
theorem test_ccBlock :
    (after (exec (.ccBlock 0 [0, 0, 0, 1]) hashOpen)).rspOut.take 8
      = [0x00, 0x12, 0x00, 0x40, 0x44, 0xaa, 0x94, 0x63] := by decide +kernel

/-- V-C13: the nonce is missing. -/
theorem test_ccBlock_not_initialized :
    reply { State.reset with ckeyv := true } [0x12, 0, 0, 4, 0, 0, 0, 0] = [0x04, 0x12, 0x00, 0x00] := by decide

/-- R143's example: "Ladi" under the key 00 .. 1f. -/
theorem test_ccCrypt :
    (after (exec (.ccCrypt 0 [0x4c, 0x61, 0x64, 0x69])
      { hashOpen with key := keyOperand ((List.range 32).map (BitVec.ofNat 8)),
                      nonce := #v[0x00000000, 0x4a000000, 0x00000000] })).rspOut
      = [0x00, 0x13, 0x00, 0x04, 0xe3, 0x64, 0x7a, 0x29] := by decide +kernel

/-- V-C7 and V-C14: an empty input, with and without the key. -/
theorem test_ccCrypt_empty :
    reply hashOpen [0x13, 0, 0, 0] = [0x00, 0x13, 0x00, 0x00] ∧
    reply { State.reset with noncev := true } [0x13, 0, 0, 0] = [0x04, 0x13, 0x00, 0x00] := by decide

/-! ## Message Authenticator -/

/-- R170's example, and V-M30: a MAC in progress is abandoned. -/
theorem test_maSetkey :
    let s := after (exec (.maSetkey 0 jefe) macOpen)
    s.k0 = zeroPadded jefe ∧ s.owner = .none ∧ s.he.bitLen = 0 ∧ s.mkeyv = true := by decide

/-- V-M15, P4: a key of 65 bytes "k" is hashed; first bytes of `K0`, and the zero padding. -/
theorem test_maSetkey_long :
    let s := after (exec (.maSetkey 0 (List.replicate 65 0x6b)) hashOpen)
    s.k0[0] = 0xf3 ∧ s.k0[1] = 0x9c ∧ s.k0[31] = 0x22 ∧ s.k0[32] = 0 ∧ s.owner = .none := by decide +kernel

/-- V-M2 in detail: the chaining value after the inner pad, and R171's `STATUS`. -/
theorem test_maInit :
    let s := after (exec (.maInit 0 []) { State.reset with k0 := zeroPadded jefe, mkeyv := true })
    s.he.h[0] = 0x655da7fa ∧ s.he.h[7] = 0x78c7500c ∧ s.he.bufLen = 0 ∧ s.he.bitLen = 512 ∧ statusByte s = 0x12 := by
  decide +kernel

/-- V-M24. -/
theorem test_maInit_not_initialized : reply State.reset [0x21, 0, 0, 0] = [0x04, 0x21, 0x00, 0x00] := by decide

/-- R172's example. -/
theorem test_maUpdate :
    let s := after (exec (.maUpdate 0 nothing) macOpen)
    s.he.bufLen = 28 ∧ s.he.bitLen = 736 ∧ s.he.buf[27] = 0x3f ∧ s.he.h = sha256IV := by decide +kernel

/-- V-M25. -/
theorem test_maUpdate_sequence : reply State.reset [0x22, 0, 0, 1, 0x78] = [0x05, 0x22, 0x00, 0x00] := by decide

/-- V-M2, R173's example: the tag and `STATUS`. -/
theorem test_maFinal :
    let s := after (exec (.maFinal 0 []) vm2)
    s.rspOut = [0x00, 0x23, 0x00, 0x20] ++ vm2Tag ∧ statusByte s = 0x30 := by decide +kernel

/-- V-M28: a second `MA_FINAL`. -/
theorem test_maFinal_sequence : reply vm2Tagged [0x23, 0, 0, 0] = [0x05, 0x23, 0x00, 0x00] := by decide

/-- R174's example: the same tag as text. -/
theorem test_maFinalx : hexText vm2Tag = vm2Text ∧ reply vm2 [0x24, 0, 0, 1, 0] = [0x03, 0x24, 0x00, 0x00] := by decide

/-- V-M17: upper case matches, `VOK` is set, `STATUS` as in R175's example (0x70). -/
theorem test_maVerify :
    let s := after (exec (.maVerify 0 vm2Upper) vm2Tagged)
    s.rspOut = [0x00, 0x25, 0x00, 0x01, 0x01] ∧ statusByte s = 0x70 := by decide +kernel

/-- V-M22, V-M20: a trailing newline, and the raw tag, do not match. -/
theorem test_maVerify_mismatch :
    (after (exec (.maVerify 0 (vm2Text ++ [0x0a])) vm2Tagged)).rspOut = [0x00, 0x25, 0x00, 0x01, 0x00] ∧
    (after (exec (.maVerify 0 vm2Tag) vm2Tagged)).rspOut = [0x00, 0x25, 0x00, 0x01, 0x00] := by decide +kernel

/-! ## System -/

/-- R190's examples, V-S1. -/
theorem test_rdstat :
    reply State.reset [0x30, 0, 0, 0] = [0x00, 0x30, 0x00, 0x01, 0x00] ∧
    reply { State.reset with owner := .hash, ckeyv := true, noncev := true } [0x30, 0, 0, 0]
      = [0x00, 0x30, 0x00, 0x01, 0x0d] := by decide

/-- R70's neighbour V-S6: `RDSTAT` takes no payload. -/
theorem test_rdstat_length : reply State.reset [0x30, 0, 0, 1, 0] = [0x03, 0x30, 0x00, 0x00] := by decide

/-! ## The statements' hypotheses are met -/

/-- A hash open after "abc", no key loaded, `RDSTAT` waiting. -/
def hashBusy : State :=
  { State.reset with
    he := { heInit with buf := zeroPadded [0x61, 0x62, 0x63], bufLen := 3, bitLen := 24 }
    owner := .hash
    cmdIn := [0x30, 0x00, 0x00, 0x00] }

/-- `hashBusy` with other values in every register no valid flag covers. -/
def hashBusyTwin : State :=
  { hashBusy with
    key := Vector.replicate 8 0x5a5a5a5a
    nonce := Vector.replicate 3 0xa5a5a5a5
    k0 := Vector.replicate 64 0x77
    tag := Vector.replicate 32 0x99 }

/-- A hash open whose counter leaves room for exactly one more byte. -/
def hashNearFull : State :=
  { hashOpen with he := { heInit with buf := zeroPadded (List.replicate 62 1), bufLen := 62, bitLen := 0xfffffffffffffff0 } }

/-- The same, held by a MAC. -/
def macNearFull : State := { macOpen with he := hashNearFull.he }

theorem hashBusy_inv : hashBusy.Inv where
  bufClear := by unfold HashRegs.bufClear; decide +kernel
  wholeBytes := by decide
  fill := by decide
  idle := by decide
  macOpen := by decide
  vokTagged := by decide
  macKeyed := by decide
  tagKeyed := by decide

theorem vm2_inv : vm2.Inv where
  bufClear := by unfold HashRegs.bufClear; decide +kernel
  wholeBytes := by decide
  fill := by decide
  idle := by decide
  macOpen := by decide
  vokTagged := by decide
  macKeyed := by decide
  tagKeyed := by decide

theorem vm2_bufClear : vm2.he.bufClear := vm2_inv.bufClear

theorem nearFull_bufClear : hashNearFull.he.bufClear := by unfold HashRegs.bufClear; decide +kernel

theorem test_hyp_EveryStepKeepsTheInvariant :
    (hashBusy.Inv ∧ ∃ t, step hashBusy = .next t) ∧ (vm2.Inv ∧ ∃ t, step vm2 = .next t) :=
  ⟨⟨hashBusy_inv, step_next _⟩, vm2_inv, step_next _⟩

theorem test_hyp_UnwrittenRegistersAreUnobservable :
    hashBusy.Inv ∧ hashBusy.Alike hashBusyTwin ∧ hashBusy.key ≠ hashBusyTwin.key ∧ ∃ t, step hashBusy = .next t := by
  refine ⟨hashBusy_inv, ?_, by decide, step_next _⟩
  constructor <;> first | rfl | decide

theorem test_hyp_DecodeAfterEncode :
    (Instr.ccBlock 0x07 [1, 2, 3, 4, 5]).encodable = true ∧ (Instr.shaUpdate 0 (List.replicate 65535 0)).encodable = true := by
  decide +kernel

theorem test_hyp_EncodeAfterDecode :
    decode [0x30, 0x09, 0x00, 0x01, 0x02, 0x03] = .command (.rdstat 0x09 [0x02]) [0x03] := by decide

theorem test_hyp_StepRunsTheDecodedCommand : decode hashBusy.cmdIn = .command (.rdstat 0x00 []) [] := by decide

theorem test_hyp_StepConsumesOneCommandWhateverItsHeader :
    { hashBusy with cmdIn := [0x77, 0x01, 0x00, 0x02, 0xaa, 0xbb, 0x30] }.cmdIn
        = 0x77 :: 0x01 :: 0x00 :: 0x02 :: ([0xaa, 0xbb] ++ [0x30]) ∧
      ([0xaa, 0xbb] : List Byte).length = (0x00 : Byte).toNat * 256 + (0x02 : Byte).toNat := by decide

theorem test_hyp_IncompleteCommandHolds :
    { hashBusy with cmdIn := [0x01, 0x00, 0x00] }.cmdIn.length < 4 ∧
      ({ hashBusy with cmdIn := [0x01, 0x00, 0x00, 0x01] }.cmdIn = 0x01 :: 0x00 :: 0x00 :: 0x01 :: [] ∧
        ([] : List Byte).length < (0x00 : Byte).toNat * 256 + (0x01 : Byte).toNat) := by decide

theorem test_hyp_AppendedBytesDoNotDisturbACommand : hashBusy.holding = false := by decide

theorem test_hyp_EveryStreamOfCommandsIsAnswered :
    (∀ c ∈ [[0x30, 0x00, 0x00, 0x00], [0xff, 0x01, 0x00, 0x02, 0xaa, 0xbb]], ∃ (b0 b1 b2 b3 : Byte) (p : List Byte),
      c = b0 :: b1 :: b2 :: b3 :: p ∧ p.length = b2.toNat * 256 + b3.toNat) ∧
    { hashBusy with cmdIn := [0x30, 0x00, 0x00, 0x00, 0xff, 0x01, 0x00, 0x02, 0xaa, 0xbb] }.cmdIn
      = [[0x30, 0x00, 0x00, 0x00], [0xff, 0x01, 0x00, 0x02, 0xaa, 0xbb]].flatten := by
  refine ⟨?_, by decide⟩
  intro c hc
  simp only [List.mem_cons, List.not_mem_nil, or_false] at hc
  obtain rfl | rfl := hc <;> exact ⟨_, _, _, _, _, rfl, by decide⟩

theorem test_hyp_IllegalOpcodesAreRejected :
    (0x04 : Byte) ∉ ([0x01, 0x02, 0x03, 0x10, 0x11, 0x12, 0x13, 0x20, 0x21, 0x22, 0x23, 0x24, 0x25, 0x30] : List Byte) ∧
      { hashBusy with cmdIn := [0x04, 0x01, 0x00, 0x01, 0xaa, 0x30] }.cmdIn = 0x04 :: 0x01 :: 0x00 :: 0x01 :: ([0xaa] ++ [0x30]) ∧
      ([0xaa] : List Byte).length = (0x00 : Byte).toNat * 256 + (0x01 : Byte).toNat := by decide

theorem test_hyp_RejectionChangesNoRegister :
    decode { hashBusy with cmdIn := [0x24, 0x00, 0x00, 0x00, 0x30] }.cmdIn = .command (.maFinalx 0x00 []) [0x30] ∧
      Reference.verdict (.maFinalx 0x00 []) { hashBusy with cmdIn := [0x24, 0x00, 0x00, 0x00, 0x30] } ≠ .ok ∧
      decode { hashBusy with cmdIn := [0x0f, 0x00, 0x00, 0x01, 0x30, 0x30] }.cmdIn = .illegalOpcode 0x0f [0x30] := by
  decide

theorem test_hyp_WellFormedCommandsPassTheHeaderChecks :
    (Instr.ccSetnonce 0 (List.replicate 12 0)).wellFormed = true := by decide

/-- Every row of the flag table is reached by an accepted command. -/
theorem test_hyp_FlagsFollowTheFlagTable :
    ([(.shaInit 0 [], vm2), (.shaUpdate 0 [1], hashNearFull), (.shaFinal 0 [], hashOpen),
      (.ccSetkey 0 (List.replicate 32 0), vm2), (.ccSetnonce 0 (List.replicate 12 0), vm2),
      (.ccBlock 0 [0, 0, 0, 0], hashOpen), (.ccCrypt 0 [], hashOpen)] : List (Instr × State)).all
        (fun c => Reference.verdict c.1 c.2 == .ok) = true ∧
    ([(.maSetkey 0 (List.replicate 64 0), vm2), (.maSetkey 0 (List.replicate 65 0), hashOpen),
      (.maSetkey 0 [], hashOpen), (.maInit 0 [], hashOpen), (.maUpdate 0 [1], macNearFull), (.maFinal 0 [], vm2),
      (.maFinalx 0 [], vm2), (.maVerify 0 vm2Text, vm2Tagged), (.maVerify 0 [], vm2Tagged),
      (.rdstat 0 [], vm2)] : List (Instr × State)).all
        (fun c => Reference.verdict c.1 c.2 == .ok) = true := by decide +kernel

theorem test_hyp_ShaUpdateAbsorbsItsPayload :
    hashNearFull.owner = .hash ∧ hashNearFull.he.bitLen.toNat + 8 * ([0x61] : List Byte).length < 2 ^ 64 ∧
      hashNearFull.he.bufClear := ⟨by decide, by decide, nearFull_bufClear⟩

/-- One state on each side of the two-block threshold. -/
theorem test_hyp_ShaFinalAnswersTheDigest :
    (hashBusy.owner = .hash ∧ hashBusy.he.bufClear) ∧ (hashNearFull.owner = .hash ∧ hashNearFull.he.bufClear) :=
  ⟨⟨by decide, hashBusy_inv.bufClear⟩, by decide, nearFull_bufClear⟩

theorem test_hyp_CuttingAnUpdateDoesNotMatter :
    hashBusy.owner = .hash ∧ hashBusy.he.bitLen.toNat + 8 * (List.replicate 61 (1 : Byte) ++ [2, 3]).length < 2 ^ 64 := by
  decide

theorem test_hyp_StreamedHashIsSha256 :
    8 * ([[0x61, 0x62], [], [0x63]] : List (List Byte)).flatten.length < 2 ^ 64 := by decide

theorem test_hyp_PseudoSha256ComputesSha256 : 8 * ([0x61, 0x62, 0x63] : List Byte).length < 2 ^ 64 := by decide

theorem test_hyp_MacCommandsDestroyAHash :
    (Reference.verdict (.maInit 0 []) hashOpen = .ok ∧ hashOpen.owner = .hash) ∧
      (Reference.verdict (.maSetkey 0 (List.replicate 65 1)) hashOpen = .ok ∧ 64 < (List.replicate 65 (1 : Byte)).length) := by
  decide

theorem test_hyp_CommandsDestroyAMac :
    vm2.owner = .mac ∧ vm2.mkeyv = true ∧ { vm2 with owner := .none }.k0 = vm2.k0 := by decide +kernel

theorem test_hyp_FinalsEndTheStream : hashBusy.owner = .hash ∧ vm2.owner = .mac := by decide

theorem test_hyp_HarmlessCommandsKeepTheEngine :
    Instr.ccBlock 0 [] = .ccBlock 0 [] ∧ (List.replicate 64 (1 : Byte)).length ≤ 64 ∧ hashBusy.owner ≠ .mac := by decide

theorem test_hyp_CcSetkeyLoadsTheKey : (List.replicate 32 (7 : Byte)).length = 32 := by decide

theorem test_hyp_CcSetnonceLoadsTheNonce : (List.replicate 12 (7 : Byte)).length = 12 := by decide

theorem test_hyp_CcBlockAnswersTheKeystreamBlock :
    ([0xff, 0xff, 0xff, 0xff] : List Byte).length = 4 ∧ hashOpen.ckeyv = true ∧ hashOpen.noncev = true := by decide

theorem test_hyp_CcCryptIsPositionWise :
    (List.replicate 65535 (1 : Byte)).length ≤ 65535 ∧ ([] : List Byte).length ≤ 65535 ∧ hashOpen.ckeyv = true ∧
      hashOpen.noncev = true := ⟨by rw [List.length_replicate], by decide, by decide, by decide⟩

theorem test_hyp_CcCryptRoundTrips :
    ([0x4c, 0x61] : List Byte).length ≤ 65535 ∧ hashOpen.ckeyv = true ∧ hashOpen.noncev = true := by decide

/-- The last input with an expansion, and the first without. -/
theorem test_hyp_PseudoCipherCallsUseTheirOperands :
    (List.replicate 32 (1 : Byte)).length = 32 ∧ (List.replicate 12 (2 : Byte)).length = 12 ∧
      (List.replicate 65535 (3 : Byte)).length ≤ 65535 ∧ 65535 < (List.replicate 65536 (3 : Byte)).length := by
  simp only [List.length_replicate]; decide

/-- R86: the limit is the command's. -/
theorem test_pseudoCcEncrypt_limit :
    (pseudoCcEncrypt [] [] (List.replicate 65535 3)).isSome = true ∧
      (pseudoCcDecrypt [] [] (List.replicate 65536 3)).isNone = true := by decide +kernel

/-- R87: the commands of one `HMAC`, and no pure expansion of a longer key. -/
theorem test_pseudoHmac :
    pseudoHmac jefe nothing = some [.maSetkey 0 jefe, .maInit 0 [], .maUpdate 0 nothing, .maFinal 0 []] ∧
      (pseudoHmacHex (List.replicate 65536 3) nothing).isNone = true := by decide +kernel

/-- R81, R90: the digest the host carries is the last response's payload. -/
theorem test_lastDigest :
    { State.reset with rspOut := [0x00, 0x01, 0x00, 0x00, 0x00, 0x23, 0x00, 0x20] ++ vm2Tag }.lastDigest = vm2Tag := by
  decide

theorem test_hyp_DeriveKeysLoadsTheDigestOfTheSecret : 8 * nothing.length < 2 ^ 64 := by decide

theorem test_hyp_PseudoExpansionsAreEncodable :
    (List.replicate 65535 (1 : Byte)).length ≤ 65535 ∧ nothing.length ≤ 65535 ∧ jefe.length ≤ 65535 ∧
      pseudoCcEncrypt jefe jefe nothing = some [.ccSetkey 0 jefe, .ccSetnonce 0 jefe, .ccCrypt 0 nothing] := by
  refine ⟨by rw [List.length_replicate], by decide, by decide, by decide⟩

/-- The last key with a pure expansion, and the first without. -/
theorem test_hyp_PseudoHmacComputesTheTag :
    8 * (List.replicate 65535 (1 : Byte)).length < 2 ^ 64 ∧ (List.replicate 65535 (1 : Byte)).length ≤ 65535 ∧
      8 * (List.replicate 65536 (1 : Byte)).length < 2 ^ 64 ∧ 65535 < (List.replicate 65536 (1 : Byte)).length ∧
      8 * (64 + nothing.length) < 2 ^ 64 := by
  simp only [List.length_replicate]; decide

theorem test_hyp_OneDigestLoadsBothKeys : (List.replicate 32 (9 : Byte)).length = 32 := by decide

theorem test_hyp_MaSetkeyLoadsAShortKey : (List.replicate 64 (1 : Byte)).length ≤ 64 ∧ ([] : List Byte).length ≤ 64 := by
  decide

theorem test_hyp_MaSetkeyHashesALongKey :
    (64 < (List.replicate 65 (1 : Byte)).length ∧ (List.replicate 65 (1 : Byte)).length ≤ 65535) ∧
      (64 < (List.replicate 65535 (1 : Byte)).length ∧ (List.replicate 65535 (1 : Byte)).length ≤ 65535) := by
  simp only [List.length_replicate]; decide

theorem test_hyp_MaInitAbsorbsTheInnerPad : hashOpen.mkeyv = true ∧ vm2.mkeyv = true := by decide

theorem test_hyp_MaUpdateAbsorbsItsPayload :
    macNearFull.owner = .mac ∧ macNearFull.he.bitLen.toNat + 8 * ([0x61] : List Byte).length < 2 ^ 64 ∧
      macNearFull.he.bufClear := ⟨by decide, by decide, nearFull_bufClear⟩

theorem test_hyp_MaFinalAnswersTheTag : vm2.owner = .mac ∧ vm2.he.bufClear := ⟨by decide, vm2_bufClear⟩

theorem test_hyp_MaFinalxAnswersTheTagAsText : macNearFull.owner = .mac := by decide

theorem test_hyp_MaVerifyComparesTheText : vm2Tagged.tagv = true := by decide

theorem test_hyp_MacSequenceComputesHmac :
    (List.replicate 65 (1 : Byte)).length ≤ 65535 ∧
      8 * (64 + ([nothing, [], jefe] : List (List Byte)).flatten.length) < 2 ^ 64 := by decide

theorem test_hyp_SignedTextVerifies : vm2.owner = .mac := by decide

theorem test_hyp_LongKeyLoadsAsItsDigest :
    64 < (List.replicate 65 (1 : Byte)).length ∧ (List.replicate 65 (1 : Byte)).length ≤ 65535 := by decide

theorem test_hyp_PseudoHmacVerifyChecksTheTag :
    jefe.length ≤ 65535 ∧ vm2.mkeyv = true ∧ vm2.k0.toList = Reference.keyBlock jefe ∧
      8 * (64 + nothing.length) < 2 ^ 64 := by decide +kernel

/-! The clauses that say when a command is rejected: a header byte that is not 0x00, a length just off the legal one,
a flag missing, the counter's last value. -/

theorem test_hyp_errors_format : (0x01 : Byte) ≠ 0 ∧ (0xff : Byte) ≠ 0 := by decide

theorem test_hyp_errors_length :
    ([0] : List Byte).length ≠ 0 ∧ (List.replicate 31 (0 : Byte)).length ≠ 32 ∧
      (List.replicate 33 (0 : Byte)).length ≠ 32 ∧ (List.replicate 11 (0 : Byte)).length ≠ 12 ∧
      (List.replicate 16 (0 : Byte)).length ≠ 12 ∧ (List.replicate 3 (0 : Byte)).length ≠ 4 ∧
      (List.replicate 5 (0 : Byte)).length ≠ 4 := by decide

theorem test_hyp_errors_CcBlock :
    ([0, 0, 0, 0] : List Byte).length = 4 ∧ { hashOpen with noncev := false }.noncev = false := by decide

theorem test_hyp_errors_CcCrypt : ([] : List Byte).length ≤ 65535 ∧ { hashOpen with ckeyv := false }.ckeyv = false := by
  decide

theorem test_hyp_errors_MaInit : hashBusy.mkeyv = false := by decide

theorem test_hyp_errors_MaVerify : hashBusy.tagv = false := by decide

/-- `ERR_SEQUENCE`: the engine is held by the other group. -/
theorem test_hyp_errors_sequence : hashBusy.owner ≠ .mac ∧ vm2.owner ≠ .hash := by decide

/-- `ERR_OVERFLOW`: one byte more than `hashNearFull` and `macNearFull` have room for. -/
theorem test_hyp_errors_overflow :
    (hashNearFull.owner = .hash ∧ 2 ^ 64 ≤ hashNearFull.he.bitLen.toNat + 8 * ([0x61, 0x62] : List Byte).length) ∧
      (macNearFull.owner = .mac ∧ 2 ^ 64 ≤ macNearFull.he.bitLen.toNat + 8 * ([0x61, 0x62] : List Byte).length) := by
  decide

theorem test_hyp_HashCommandsFrame : ∃ t, exec (.shaUpdate 0 nothing) hashBusy = .next t := exec_next _ _

theorem test_hyp_CipherLoadsFrame :
    ∃ t u, exec (.ccSetkey 0 (List.replicate 12 0)) hashBusy = .next t ∧
      exec (.ccSetnonce 0 (List.replicate 12 0)) hashBusy = .next u := by
  obtain ⟨t, ht⟩ := exec_next (.ccSetkey 0 (List.replicate 12 0)) hashBusy
  obtain ⟨u, hu⟩ := exec_next (.ccSetnonce 0 (List.replicate 12 0)) hashBusy
  exact ⟨t, u, ht, hu⟩

theorem test_hyp_ReadingCommandsFrame : ∃ t, exec (.ccCrypt 0 nothing) hashOpen = .next t := exec_next _ _

theorem test_hyp_AuthenticatorFrame :
    (∃ t, exec (.maSetkey 0 jefe) vm2 = .next t) ∧ (∃ t, exec (.maInit 0 []) vm2 = .next t) ∧
      (∃ t, exec (.maUpdate 0 jefe) vm2 = .next t) ∧ (∃ t, exec (.maFinal 0 []) vm2 = .next t) ∧
      (∃ t, exec (.maFinalx 0 []) vm2 = .next t) ∧ ∃ t, exec (.maVerify 0 vm2Text) vm2Tagged = .next t :=
  ⟨exec_next _ _, exec_next _ _, exec_next _ _, exec_next _ _, exec_next _ _, exec_next _ _⟩

/-- A step that changes `KEY`, one that changes `NONCE`, one that changes `K0`. -/
theorem test_hyp_OnlyLoadsWriteTheKeys :
    (after (step { hashBusy with cmdIn := 0x10 :: 0x00 :: 0x00 :: 0x20 :: List.replicate 32 1 })).key ≠ hashBusy.key ∧
    (after (step { hashBusy with cmdIn := 0x11 :: 0x00 :: 0x00 :: 0x0c :: List.replicate 12 1 })).nonce ≠ hashBusy.nonce ∧
    (after (step { hashBusy with cmdIn := [0x20, 0x00, 0x00, 0x01, 0x01] })).k0 ≠ hashBusy.k0 := by decide +kernel

theorem test_hyp_KeyAndNonceLeaveOnlyThroughTheCipher :
    (∀ r p, Instr.rdstat 0 [] ≠ .ccBlock r p ∧ Instr.rdstat 0 [] ≠ .ccCrypt r p) ∧
      ∃ t, exec (.rdstat 0 []) hashOpen = .next t := by
  refine ⟨fun r p => ⟨?_, ?_⟩, exec_next _ _⟩ <;> simp

theorem test_hyp_MacKeyLeavesOnlyThroughTheMac :
    (∀ r p, Instr.maVerify 0 vm2Text ≠ .maInit r p ∧ Instr.maVerify 0 vm2Text ≠ .maFinal r p ∧
      Instr.maVerify 0 vm2Text ≠ .maFinalx r p) ∧ ∃ t, exec (.maVerify 0 vm2Text) vm2Tagged = .next t := by
  refine ⟨fun r p => ⟨?_, ?_, ?_⟩, exec_next _ _⟩ <;> simp

end Sys2Proof.Tests
end

section
/-! PROOFS. The checks a command makes, what an accepted command leaves unchanged, and two runs side by side; then the
statements about the state (10_state.md): the status byte, the flag table, the frames, the invariant, and what no
response depends on. -/

namespace Sys2Proof.Machine

/-! ## The checks, one by one -/

@[simp] theorem formatError_eq_none (r : Byte) : formatError r = none ↔ r = 0 := by
  simp [formatError]

@[simp] theorem lengthError_eq_none (p : List Byte) (n : Nat) : lengthError p n = none ↔ p.length = n := by
  simp [lengthError]

@[simp] theorem cipherInitError_eq_none (s : State) :
    cipherInitError s = none ↔ s.ckeyv = true ∧ s.noncev = true := by
  simp [cipherInitError]

@[simp] theorem macInitError_eq_none (s : State) : macInitError s = none ↔ s.mkeyv = true := by
  simp [macInitError]

@[simp] theorem ownerError_eq_none (s : State) (o : Owner) : ownerError s o = none ↔ s.owner = o := by
  simp [ownerError]

@[simp] theorem tagError_eq_none (s : State) : tagError s = none ↔ s.tagv = true := by
  simp [tagError]

@[simp] theorem overflowError_eq_none (s : State) (p : List Byte) :
    overflowError s p = none ↔ s.he.bitLen.toNat + 8 * p.length < 2 ^ 64 := by
  simp [overflowError]

/-- The first failing check is what the error matrix of R201 says under the priority of R202. -/
theorem firstError_checks (i : Instr) (s : State) :
    firstError (checks i s)
      = if Reference.verdict i s = .ok then none else some (Reference.verdict i s) := by
  cases i <;>
    simp only [checks, Reference.verdict, Instr.rsv, Instr.legalLen, formatError, lengthError, cipherInitError,
      macInitError, ownerError, tagError, overflowError, Bool.and_eq_true] <;>
    split_ifs <;> simp_all

/-- The checks pass exactly when the matrix says `ok`. -/
theorem accepted_iff {i : Instr} {s : State} :
    firstError (checks i s) = none ↔ Reference.verdict i s = .ok := by
  rw [firstError_checks]
  split <;> simp_all

/-- An accepted command had a zero `rsv` byte (R69): every list of checks begins with that one. -/
theorem rsv_eq_zero_of_accepted {i : Instr} {s : State} (h : firstError (checks i s) = none) : i.rsv = 0 := by
  have format : formatError i.rsv ∈ checks i s := by cases i <;> exact List.mem_cons_self
  exact (formatError_eq_none _).mp ((firstError_eq_none _).mp h _ format)

/-- What each command needs of the registers it reads (the last paragraph of R28, and R14). -/
def Needs : Instr → State → Prop
  | .shaUpdate _ p, s => s.owner = .hash ∧ s.he.bitLen.toNat + 8 * p.length < 2 ^ 64
  | .shaFinal _ _, s => s.owner = .hash
  | .ccBlock _ _, s | .ccCrypt _ _, s => s.ckeyv = true ∧ s.noncev = true
  | .maInit _ _, s => s.mkeyv = true
  | .maUpdate _ p, s => s.owner = .mac ∧ s.he.bitLen.toNat + 8 * p.length < 2 ^ 64
  | .maFinal _ _, s | .maFinalx _ _, s => s.owner = .mac
  | .maVerify _ _, s => s.tagv = true
  | _, _ => True

/-- An accepted command found what it needs. -/
theorem needs_of_accepted {i : Instr} {s : State} (h : firstError (checks i s) = none) : Needs i s := by
  cases i <;> simp_all [checks, firstError_eq_none, Needs]

/-! ## What the outcome of a command or a step is -/

theorem step_of_incomplete {s : State} (h : s.fetch = .incomplete) : step s = .next s := by
  simp only [step, h]

theorem step_of_illegalOpcode {s : State} {op : Byte} {rest : List Byte} (h : s.fetch = .illegalOpcode op rest) :
    step s = .next ((s.takeCommand rest).reject .errOpcode op) := by
  simp only [step, h, raise_next]

theorem step_of_command {s : State} {i : Instr} {rest : List Byte} (h : s.fetch = .command i rest) :
    step s = exec i (s.takeCommand rest) := by
  simp only [step, h]

/-- `exec_cases` for a given outcome: the state before with an error response, or the effect with its response. -/
theorem exec_next_cases {i : Instr} {s t : State} (h : exec i s = .next t) :
    (∃ e, firstError (checks i s) = some e ∧ t = s.reject e i.opcode) ∨
      (firstError (checks i s) = none ∧ t = (effect i s).1.emit .ok i.opcode (effect i s).2) := by
  obtain ⟨e, hc, he⟩ | ⟨hc, he⟩ := exec_cases i s <;> cases he.symm.trans h
  · exact .inl ⟨e, hc, rfl⟩
  · exact .inr ⟨hc, rfl⟩

/-- A command's response goes to the back of `RSP_OUT` (R42). -/
theorem exec_rspOut_grows {i : Instr} {s t : State} (h : exec i s = .next t) : s.rspOut <+: t.rspOut := by
  obtain ⟨_, -, rfl⟩ | ⟨-, rfl⟩ := exec_next_cases h
  · exact List.prefix_append _ _
  · rw [State.emit_rspOut, effect_rspOut]
    exact List.prefix_append _ _

/-- A property of the outcome holds if it holds of the state before and of the effect, and no response changes it. -/
theorem exec_keeps {P : State → Prop} {i : Instr} {s t : State}
    (hemit : ∀ s st op pl, P s → P (State.emit st op pl s)) (hs : P s)
    (heff : firstError (checks i s) = none → P (effect i s).1) (h : exec i s = .next t) : P t := by
  obtain ⟨e, -, rfl⟩ | ⟨hc, rfl⟩ := exec_next_cases h
  · exact hemit s e _ _ hs
  · exact hemit _ _ _ _ (heff hc)

/-- Two runs of one command: if both make the same checks and, when these pass, have related effects and the same
payload, then the outcomes are related by any relation that responses keep. -/
theorem exec_related {R : State → State → Prop} {i : Instr} {s s' t : State}
    (hemit : ∀ s s' st op pl, R s s' → R (State.emit st op pl s) (State.emit st op pl s')) (hs : R s s')
    (hchecks : checks i s' = checks i s)
    (heff : firstError (checks i s) = none → R (effect i s).1 (effect i s').1 ∧ (effect i s').2 = (effect i s).2)
    (h : exec i s = .next t) : ∃ t', exec i s' = .next t' ∧ R t t' := by
  obtain ⟨e, hc, rfl⟩ | ⟨hc, rfl⟩ := exec_next_cases h
  · exact ⟨_, exec_rejected i s' e (hchecks ▸ hc), hemit s s' e _ _ hs⟩
  · obtain ⟨hR, hpl⟩ := heff hc
    exact ⟨_, exec_accepted i s' (hchecks ▸ hc), hpl ▸ hemit _ _ _ _ _ hR⟩

/-! ## `MA_SETKEY` on the engine (R170, R251) -/

/-- The three cases of the engine under `MA_SETKEY`: used for the digest of a long key, a MAC given up, or untouched. -/
theorem macKeyEngine_cases (p : List Byte) (s : State) :
    (64 < p.length ∧ macKeyEngine p s = s.setHash (heFinish (heAbsorb heInit p)).2 .none) ∨
      (p.length ≤ 64 ∧ s.owner = .mac ∧ macKeyEngine p s = s.setHash (heRelease s.he) .none) ∨
      (p.length ≤ 64 ∧ s.owner ≠ .mac ∧ macKeyEngine p s = s) := by
  unfold macKeyEngine
  split_ifs with long mac
  · exact .inl ⟨long, rfl⟩
  · exact .inr (.inl ⟨Nat.le_of_not_lt long, mac, rfl⟩)
  · exact .inr (.inr ⟨Nat.le_of_not_lt long, mac, rfl⟩)

/-- Whichever case it is, only the engine and its owner are written. -/
theorem macKeyEngine_frame (p : List Byte) (s : State) :
    macKeyEngine p s = s.setHash (macKeyEngine p s).he (macKeyEngine p s).owner := by
  obtain ⟨-, h⟩ | ⟨-, -, h⟩ | ⟨-, -, h⟩ := macKeyEngine_cases p s <;> rw [h] <;> rfl

/-! ## The status byte and the flag table (R25, R28) -/

/-- Settles O18: a fact about three owners and five bits. -/
theorem statusMirrorsTheFlags : Obligations.StatusMirrorsTheFlags := by
  intro s
  unfold statusByte
  generalize s.owner = o, s.ckeyv = ck, s.noncev = n, s.mkeyv = mk, s.tagv = t, s.vok = v
  cases o <;> revert ck n mk t v <;> decide

/-- A character of R163: a digit or a letter `a` to `f`. -/
def IsLowerHex (c : Byte) : Prop := (0x30 ≤ c ∧ c ≤ 0x39) ∨ (0x61 ≤ c ∧ c ≤ 0x66)

theorem hexDigit_isLowerHex {v : Byte} (h : v < 16) : IsLowerHex (hexDigit v) := by
  unfold IsLowerHex hexDigit
  split <;> bv_omega

theorem highNibble_lt (b : Byte) : b >>> 4 < 16 := by
  rw [BitVec.lt_def, BitVec.toNat_ushiftRight, Nat.shiftRight_eq_div_pow]
  exact Nat.div_lt_of_lt_mul b.isLt

theorem lowNibble_lt (b : Byte) : b &&& 0x0F < 16 := by
  rw [BitVec.lt_def, BitVec.toNat_and]
  exact Nat.lt_of_le_of_lt Nat.and_le_right (by decide)

/-- The text of a tag has only lower-case hexadecimal characters (R163). -/
theorem hexText_isLowerHex (s : List Byte) : ∀ c ∈ hexText s, IsLowerHex c := by
  simp only [hexText, List.mem_flatMap, List.mem_cons, List.not_mem_nil, or_false]
  rintro _ ⟨b, -, rfl | rfl⟩
  · exact hexDigit_isLowerHex (highNibble_lt b)
  · exact hexDigit_isLowerHex (lowNibble_lt b)

/-- A character folds to a hexadecimal one exactly when it is that one or its upper-case form (R164). -/
theorem foldCase_eq_iff {b c : Byte} (hc : IsLowerHex c) :
    foldCase b = c ↔ b = c ∨ (0x61 ≤ c ∧ c ≤ 0x66 ∧ b = c - 0x20) := by
  unfold IsLowerHex at hc
  unfold foldCase
  split <;> bv_omega

/-- Folding and comparing is comparing up to letter case, for a hexadecimal text (R164, R176). -/
theorem map_foldCase_beq (p : List Byte) {x : List Byte} (hx : ∀ c ∈ x, IsLowerHex c) :
    (p.map foldCase == x) = Reference.sameUpToCase p x := by
  induction p generalizing x with
  | nil => cases x <;> rfl
  | cons b p ih =>
    cases x with
    | nil => rfl
    | cons c x =>
      have hc := foldCase_eq_iff (b := b) (hx c List.mem_cons_self)
      have hih := ih (x := x) fun d hd => hx d (List.mem_cons_of_mem c hd)
      rw [Bool.eq_iff_iff] at hih ⊢
      simp only [Reference.sameUpToCase, List.map_cons, List.length_cons, List.zip_cons_cons, List.all_cons,
        beq_iff_eq, List.cons.injEq, Bool.and_eq_true, Bool.or_eq_true, decide_eq_true_eq, Nat.add_right_cancel_iff,
        and_assoc] at hih ⊢
      rw [hc, hih]
      exact and_left_comm

/-- What `MA_VERIFY` compares is equality with the tag's text up to letter case (R164, R175). -/
theorem matchesTag_eq_sameUpToCase (p : List Byte) (tag : Vector Byte 32) :
    matchesTag p tag = Reference.sameUpToCase p (hexText tag.toList) := by
  rw [matchesTag, map_foldCase_beq p (hexText_isLowerHex _)]
  simp [Reference.sameUpToCase]

/-- The row of R28 for each command. -/
theorem flagsOf_effect (i : Instr) (s : State) : Reference.flagsOf (effect i s).1 = Reference.flagsAfter i s := by
  cases i with
  | maSetkey _ p =>
    obtain ⟨hlen, h⟩ | ⟨hlen, ho, h⟩ | ⟨hlen, ho, h⟩ := macKeyEngine_cases p s <;>
      simp [effect, Reference.flagsOf, Reference.flagsAfter, *]
  | maFinal | maFinalx => simp [effect, Reference.flagsOf, Reference.flagsAfter]
  | maVerify _ p => simp [effect, Reference.flagsOf, Reference.flagsAfter, matchesTag_eq_sameUpToCase]
  | _ => rfl

/-- Settles O17: a rejection is not `ok` and writes no flag; an acceptance is `ok` and writes its row. -/
theorem flagsFollowTheFlagTable : Obligations.FlagsFollowTheFlagTable := by
  intro i s
  obtain ⟨e, hc, he⟩ | ⟨hc, he⟩ := exec_cases i s <;> refine ⟨_, he, ?_⟩
  · rw [if_neg fun ok => by simp [accepted_iff.mpr ok] at hc]
    rfl
  · rw [if_pos (accepted_iff.mp hc)]
    exact flagsOf_effect i s

/-! ## Frames (R28, R29) -/

/-- Settles O48: a rejection changes `RSP_OUT` alone, and the three effects write the engine and its owner. -/
theorem hashCommandsFrame : Obligations.HashCommandsFrame := by
  intro i r p s t hi h
  refine ⟨?_, ?_, exec_rspOut_grows h⟩
  · obtain ⟨_, -, rfl⟩ | ⟨-, rfl⟩ := exec_next_cases h
    · rfl
    · obtain rfl | rfl | rfl := hi <;> rfl
  · rintro rfl
    obtain ⟨_, -, rfl⟩ | ⟨-, rfl⟩ := exec_next_cases h <;> rfl

/-- Settles O51: a rejection changes `RSP_OUT` alone; an effect is its record update, for `MA_SETKEY` by
`macKeyEngine_frame`. -/
theorem authenticatorFrame : Obligations.AuthenticatorFrame := by
  intro i r p s t h
  obtain ⟨_, -, rfl⟩ | ⟨-, rfl⟩ := exec_next_cases h
  · exact ⟨fun _ => rfl, fun _ => rfl, fun _ => rfl, fun _ => rfl, fun _ => rfl⟩
  · refine ⟨?_, ?_, ?_, ?_, ?_⟩
    · rintro rfl
      simp only [effect]
      rw [macKeyEngine_frame]
      rfl
    · rintro rfl; rfl
    · rintro rfl; rfl
    · rintro (rfl | rfl) <;> rfl
    · rintro rfl; rfl

/-- Only `CC_SETKEY` writes `KEY` (R17). -/
theorem eq_ccSetkey_of_effect_key_ne {i : Instr} {s : State} (h : (effect i s).1.key ≠ s.key) :
    ∃ r p, i = .ccSetkey r p := by
  cases i with
  | ccSetkey r p => exact ⟨r, p, rfl⟩
  | maSetkey _ p => exact absurd (congrArg State.key (macKeyEngine_frame p s)) h
  | _ => exact absurd rfl h

/-- Only `CC_SETNONCE` writes `NONCE` (R18). -/
theorem eq_ccSetnonce_of_effect_nonce_ne {i : Instr} {s : State} (h : (effect i s).1.nonce ≠ s.nonce) :
    ∃ r p, i = .ccSetnonce r p := by
  cases i with
  | ccSetnonce r p => exact ⟨r, p, rfl⟩
  | maSetkey _ p => exact absurd (congrArg State.nonce (macKeyEngine_frame p s)) h
  | _ => exact absurd rfl h

/-- Only `MA_SETKEY` writes `K0` (R20). -/
theorem eq_maSetkey_of_effect_k0_ne {i : Instr} {s : State} (h : (effect i s).1.k0 ≠ s.k0) :
    ∃ r p, i = .maSetkey r p := by
  cases i with
  | maSetkey r p => exact ⟨r, p, rfl⟩
  | _ => exact absurd rfl h

/-- A register that no response and no removal from `CMD_IN` touches, and that only the command `load` writes, is
changed by a step only if an accepted `load` stands at the front of `CMD_IN`. -/
theorem fetch_eq_of_step_changes {α : Type} (f : State → α) {load : Byte → List Byte → Instr} {s t : State}
    (hemit : ∀ s st op pl, f (State.emit st op pl s) = f s) (htake : ∀ rest, f (s.takeCommand rest) = f s)
    (hload : ∀ i s, f (effect i s).1 ≠ f s → ∃ r p, i = load r p) (hrsv : ∀ r p, (load r p).rsv = r)
    (h : step s = .next t) (hf : f t ≠ f s) : ∃ p rest, s.fetch = .command (load 0 p) rest := by
  obtain ⟨-, hs⟩ | ⟨op, rest, -, hs⟩ | ⟨i, rest, hfetch, hs⟩ := step_cases s
  · cases hs.symm.trans h
    exact absurd rfl hf
  · cases hs.symm.trans h
    exact absurd ((hemit _ _ _ _).trans (htake rest)) hf
  · obtain ⟨e, -, rfl⟩ | ⟨hc, rfl⟩ := exec_next_cases (hs.symm.trans h)
    · exact absurd ((hemit _ _ _ _).trans (htake rest)) hf
    · rw [hemit, ← htake rest] at hf
      obtain ⟨r, p, rfl⟩ := hload _ _ hf
      obtain rfl : r = 0 := (hrsv r p).symm.trans (rsv_eq_zero_of_accepted hc)
      exact ⟨p, rest, hfetch⟩

/-- Settles O52: each of the three registers is written by the effect of one command only. -/
theorem onlyLoadsWriteTheKeys : Obligations.OnlyLoadsWriteTheKeys := fun _ _ h =>
  ⟨fetch_eq_of_step_changes State.key (fun _ _ _ _ => rfl) (fun _ => rfl)
      (fun _ _ => eq_ccSetkey_of_effect_key_ne) (fun _ _ => rfl) h,
    fetch_eq_of_step_changes State.nonce (fun _ _ _ _ => rfl) (fun _ => rfl)
      (fun _ _ => eq_ccSetnonce_of_effect_nonce_ne) (fun _ _ => rfl) h,
    fetch_eq_of_step_changes State.k0 (fun _ _ _ _ => rfl) (fun _ => rfl)
      (fun _ _ => eq_maSetkey_of_effect_k0_ne) (fun _ _ => rfl) h⟩

/-! ## What the keys reach (R32) -/

/-- `s'` is `s` but for `KEY` and `NONCE`. -/
def State.SameButCipherKeys (s s' : State) : Prop := ∃ k n, s' = { s with key := k, nonce := n }

/-- `s'` is `s` but for `K0`. -/
def State.SameButMacKey (s s' : State) : Prop := ∃ k, s' = { s with k0 := k }

theorem State.SameButCipherKeys.emit {s s' : State} (st : Status) (op : Byte) (pl : List Byte)
    (h : s.SameButCipherKeys s') : (s.emit st op pl).SameButCipherKeys (s'.emit st op pl) := by
  obtain ⟨k, n, rfl⟩ := h
  exact ⟨k, n, rfl⟩

theorem State.SameButMacKey.emit {s s' : State} (st : Status) (op : Byte) (pl : List Byte)
    (h : s.SameButMacKey s') : (s.emit st op pl).SameButMacKey (s'.emit st op pl) := by
  obtain ⟨k, rfl⟩ := h
  exact ⟨k, rfl⟩

/-- No check reads `KEY` or `NONCE`. -/
theorem State.SameButCipherKeys.checks_eq {s s' : State} (h : s.SameButCipherKeys s') (i : Instr) :
    checks i s' = checks i s := by
  obtain ⟨k, n, rfl⟩ := h
  cases i <;> rfl

/-- No check reads `K0`. -/
theorem State.SameButMacKey.checks_eq {s s' : State} (h : s.SameButMacKey s') (i : Instr) :
    checks i s' = checks i s := by
  obtain ⟨k, rfl⟩ := h
  cases i <;> rfl

/-- Only `CC_BLOCK` and `CC_CRYPT` read `KEY` and `NONCE`. -/
theorem State.SameButCipherKeys.effect {s s' : State} (h : s.SameButCipherKeys s') (i : Instr)
    (hi : ∀ r p, i ≠ .ccBlock r p ∧ i ≠ .ccCrypt r p) :
    (effect i s).1.SameButCipherKeys (effect i s').1 ∧ (effect i s').2 = (effect i s).2 := by
  obtain ⟨k, n, rfl⟩ := h
  cases i with
  | ccBlock r p => exact absurd rfl (hi r p).1
  | ccCrypt r p => exact absurd rfl (hi r p).2
  | ccSetkey r p => exact ⟨⟨keyOperand p, n, rfl⟩, rfl⟩
  | ccSetnonce r p => exact ⟨⟨k, nonceOperand p, rfl⟩, rfl⟩
  | maSetkey r p =>
    refine ⟨⟨k, n, ?_⟩, rfl⟩
    simp only [Machine.effect, macKeyEngine]
    split_ifs <;> rfl
  | _ => exact ⟨⟨k, n, rfl⟩, rfl⟩

/-- Only `MA_INIT` and the two finals read `K0`. -/
theorem State.SameButMacKey.effect {s s' : State} (h : s.SameButMacKey s') (i : Instr)
    (hi : ∀ r p, i ≠ .maInit r p ∧ i ≠ .maFinal r p ∧ i ≠ .maFinalx r p) :
    (effect i s).1.SameButMacKey (effect i s').1 ∧ (effect i s').2 = (effect i s).2 := by
  obtain ⟨k, rfl⟩ := h
  cases i with
  | maInit r p => exact absurd rfl (hi r p).1
  | maFinal r p => exact absurd rfl (hi r p).2.1
  | maFinalx r p => exact absurd rfl (hi r p).2.2
  | maSetkey r p =>
    refine ⟨⟨macKeyBlock p, ?_⟩, rfl⟩
    simp only [Machine.effect, macKeyEngine]
    split_ifs <;> rfl
  | _ => exact ⟨⟨k, rfl⟩, rfl⟩

/-- Settles O53: the relation `SameButCipherKeys` carried through two runs of the command. -/
theorem keyAndNonceLeaveOnlyThroughTheCipher : Obligations.KeyAndNonceLeaveOnlyThroughTheCipher := by
  intro i s t k n hi h
  have same : s.SameButCipherKeys { s with key := k, nonce := n } := ⟨k, n, rfl⟩
  obtain ⟨_, ht', k', n', rfl⟩ := exec_related (fun _ _ st op pl hs => hs.emit st op pl) same (same.checks_eq i)
    (fun _ => same.effect i hi) h
  exact ⟨k', n', ht'⟩

/-- Settles O54: the relation `SameButMacKey` carried through two runs of the command. -/
theorem macKeyLeavesOnlyThroughTheMac : Obligations.MacKeyLeavesOnlyThroughTheMac := by
  intro i s t k hi h
  have same : s.SameButMacKey { s with k0 := k } := ⟨k, rfl⟩
  obtain ⟨_, ht', k', rfl⟩ := exec_related (fun _ _ st op pl hs => hs.emit st op pl) same (same.checks_eq i)
    (fun _ => same.effect i hi) h
  exact ⟨k', ht'⟩

/-! ## The invariant (R16, R25) -/

/-- Settles O2: the engine is empty and every flag is 0. -/
theorem resetMeetsTheInvariant : Obligations.ResetMeetsTheInvariant where
  bufClear i _ := zeroBlock_getElem i i.isLt
  wholeBytes := rfl
  fill := rfl
  idle _ := ⟨rfl, rfl, rfl⟩
  macOpen h := nomatch h
  vokTagged h := nomatch h
  macKeyed h := nomatch h
  tagKeyed h := nomatch h

/-- Opening a MAC counts the inner pad, one whole block (R171). -/
theorem openMac_bitLen (s : State) : s.openMac.he.bitLen = 512 := by
  rw [State.openMac_he, (heAbsorb_spec _ _).1, padBlock_length]
  rfl

theorem openMac_bufLen (s : State) : s.openMac.he.bufLen = 0 := by
  apply Fin.ext
  rw [State.openMac_he, (heAbsorb_spec _ _).2.1, padBlock_length]
  rfl

/-- A MAC is opened on a fresh engine that has absorbed the 64 bytes of the inner pad (R171). -/
theorem openMac_inv {s : State} (hkey : s.mkeyv = true) : s.openMac.Inv where
  bufClear := (heAbsorb_spec heInit _).2.2 heInit_bufClear
  wholeBytes := by rw [openMac_bitLen]; rfl
  fill := by rw [openMac_bitLen, openMac_bufLen]; rfl
  idle := nofun
  macOpen _ := by rw [openMac_bitLen]; decide
  vokTagged := nofun
  macKeyed _ := hkey
  tagKeyed := nofun

section
variable {s : State} (h : s.Inv)
include h

theorem State.Inv.takeCommand (rest : List Byte) : (s.takeCommand rest).Inv := { h with }

theorem State.Inv.emit (st : Status) (op : Byte) (pl : List Byte) : (s.emit st op pl).Inv := { h with }

theorem State.Inv.loadKey (k : Vector Word 8) : (s.loadKey k).Inv := { h with }

theorem State.Inv.loadNonce (n : Vector Word 3) : (s.loadNonce n).Inv := { h with }

/-- An empty engine that no MAC holds meets R16. -/
theorem State.Inv.setHash_empty {r : HashRegs} {o : Owner} (hlen : r.bufLen = 0) (hbits : r.bitLen = 0)
    (hbuf : r.buf = zeroBlock) (ho : o ≠ .mac) : (s.setHash r o).Inv where
  bufClear i _ := by simp [hbuf, zeroBlock_getElem]
  wholeBytes := by simp [hbits]
  fill := by simp [hbits, hlen]
  idle _ := ⟨hlen, hbits, hbuf⟩
  macOpen hmac := absurd hmac ho
  vokTagged := h.vokTagged
  macKeyed hmac := absurd hmac ho
  tagKeyed := h.tagKeyed

/-- Absorbing keeps R16 on an engine that is held, as long as the counter does not wrap (R14). -/
theorem State.Inv.absorb {p : List Byte} (ho : s.owner ≠ .none)
    (hroom : s.he.bitLen.toNat + 8 * p.length < 2 ^ 64) : (s.absorb p).Inv := by
  obtain ⟨hbits, hlen, hclear⟩ := heAbsorb_spec s.he p
  have hcount : (heAbsorb s.he p).bitLen.toNat = s.he.bitLen.toNat + 8 * p.length := by
    rw [hbits, BitVec.toNat_add, BitVec.toNat_ofNat, Nat.mod_eq_of_lt (a := 8 * p.length) (by omega),
      Nat.mod_eq_of_lt hroom]
  have hwhole := h.wholeBytes
  have hfill := h.fill
  exact
    { bufClear := hclear h.bufClear
      wholeBytes := by rw [State.absorb_he, hcount]; omega
      fill := by rw [State.absorb_he, hcount, hlen]; omega
      idle := fun hnone => absurd hnone ho
      macOpen := fun hmac => by
        have := h.macOpen hmac
        rw [State.absorb_he, hcount]; omega
      vokTagged := h.vokTagged
      macKeyed := h.macKeyed
      tagKeyed := h.tagKeyed }

/-- Loading a MAC key drops the tag (R170). -/
theorem State.Inv.loadMacKey (k : Vector Byte 64) : (s.loadMacKey k).Inv :=
  { h with
    vokTagged := nofun
    macKeyed := fun _ => rfl
    tagKeyed := nofun }

theorem State.Inv.macKeyEngine (p : List Byte) : (macKeyEngine p s).Inv := by
  obtain ⟨-, he⟩ | ⟨-, -, he⟩ | ⟨-, -, he⟩ := macKeyEngine_cases p s <;> rw [he]
  · exact h.setHash_empty rfl rfl rfl nofun
  · exact h.setHash_empty rfl rfl rfl nofun
  · exact h

/-- The end of a MAC releases the engine and leaves a valid tag of the loaded key (R173). -/
theorem State.Inv.closeMac (ho : s.owner = .mac) : s.closeMac.Inv where
  bufClear := by rw [State.closeMac_he, macFinish_eq]; exact heRelease_bufClear _
  wholeBytes := by simp [macFinish_eq]
  fill := by simp [macFinish_eq]
  idle _ := by simp [macFinish_eq]
  macOpen := nofun
  vokTagged := nofun
  macKeyed := nofun
  tagKeyed _ := h.macKeyed ho

/-- A comparison is with a valid tag (R175). -/
theorem State.Inv.setVok (ok : Bool) (htag : s.tagv = true) : (s.setVok ok).Inv :=
  { h with vokTagged := fun _ => htag }

/-- Every accepted command keeps the invariant. -/
theorem State.Inv.effect (i : Instr) (hc : firstError (checks i s) = none) : (effect i s).1.Inv := by
  have needs := needs_of_accepted hc
  cases i with
  | shaInit => exact h.setHash_empty rfl rfl rfl nofun
  | shaFinal => exact h.setHash_empty rfl rfl rfl nofun
  | shaUpdate | maUpdate =>
    obtain ⟨ho, hroom⟩ := needs
    exact h.absorb (by simp [ho]) hroom
  | ccSetkey => exact h.loadKey _
  | ccSetnonce => exact h.loadNonce _
  | ccBlock | ccCrypt | rdstat => exact h
  | maSetkey => exact (h.macKeyEngine _).loadMacKey _
  | maInit => exact openMac_inv needs
  | maFinal | maFinalx => exact h.closeMac needs
  | maVerify => exact h.setVok _ needs

end

/-- Settles O3: removing the command, its effect and its response each keep the invariant. -/
theorem everyStepKeepsTheInvariant : Obligations.EveryStepKeepsTheInvariant := by
  intro s t h hst
  obtain ⟨-, hs⟩ | ⟨op, rest, -, hs⟩ | ⟨i, rest, -, hs⟩ := step_cases s <;> rw [hs] at hst
  · cases hst
    exact h
  · cases hst
    exact (h.takeCommand rest).emit _ _ _
  · have htake := h.takeCommand rest
    exact exec_keeps (fun _ st op pl hs => hs.emit st op pl) htake (htake.effect i) hst

/-! ## What no response depends on (R31) -/

section
variable {s s' : State} (h : s.Alike s')
include h

/-- While a command group holds the engine, all its registers agree. -/
theorem State.Alike.he_eq (ho : s.owner ≠ .none) : s.he = s'.he := by
  rw [HashRegs.mk.injEq]
  exact ⟨h.h ho, h.buf, h.bufLen, h.bitLen⟩

theorem State.Alike.takeCommand (rest : List Byte) : (s.takeCommand rest).Alike (s'.takeCommand rest) :=
  { h with cmdIn := rfl }

theorem State.Alike.emit (st : Status) (op : Byte) (pl : List Byte) : (s.emit st op pl).Alike (s'.emit st op pl) :=
  { h with rspOut := congrArg (· ++ responseBytes st op pl) h.rspOut }

theorem State.Alike.setHash (r : HashRegs) (o : Owner) : (s.setHash r o).Alike (s'.setHash r o) :=
  { h with owner := rfl, buf := rfl, bufLen := rfl, bitLen := rfl, h := fun _ => rfl }

theorem State.Alike.absorb (p : List Byte) (ho : s.owner ≠ .none) : (s.absorb p).Alike (s'.absorb p) := by
  have hhe := h.he_eq ho
  exact
    { h with
      buf := by simp [hhe]
      bufLen := by simp [hhe]
      bitLen := by simp [hhe]
      h := fun _ => by simp [hhe] }

theorem State.Alike.loadKey (k : Vector Word 8) : (s.loadKey k).Alike (s'.loadKey k) :=
  { h with ckeyv := rfl, key := fun _ => rfl }

theorem State.Alike.loadNonce (n : Vector Word 3) : (s.loadNonce n).Alike (s'.loadNonce n) :=
  { h with noncev := rfl, nonce := fun _ => rfl }

theorem State.Alike.loadMacKey (k : Vector Byte 64) : (s.loadMacKey k).Alike (s'.loadMacKey k) :=
  { h with mkeyv := rfl, tagv := rfl, vok := rfl, k0 := fun _ => rfl, tag := nofun }

theorem State.Alike.macKeyEngine (p : List Byte) : (macKeyEngine p s).Alike (macKeyEngine p s') := by
  unfold Machine.macKeyEngine
  rw [← h.owner]
  split_ifs with long mac
  · exact h.setHash _ _
  · rw [← h.he_eq (by simp [mac])]
    exact h.setHash _ _
  · exact h

theorem State.Alike.openMac (hkey : s.mkeyv = true) : s.openMac.Alike s'.openMac := by
  have hk := h.k0 hkey
  exact
    { h with
      owner := rfl
      buf := by simp [hk]
      bufLen := by simp [hk]
      bitLen := by simp [hk]
      tagv := rfl
      vok := rfl
      h := fun _ => by simp [hk]
      tag := nofun }

/-- The end of a MAC reads the engine, which is held, and `K0`, which is loaded. -/
theorem State.Alike.macFinish_eq (ho : s.owner = .mac) (hkey : s.mkeyv = true) :
    macFinish s'.k0 s'.he = macFinish s.k0 s.he := by
  rw [h.k0 hkey, h.he_eq (by simp [ho])]

theorem State.Alike.closeMac (ho : s.owner = .mac) (hkey : s.mkeyv = true) : s.closeMac.Alike s'.closeMac := by
  have hfin := h.macFinish_eq ho hkey
  exact
    { h with
      owner := rfl
      buf := by simp [hfin]
      bufLen := by simp [hfin]
      bitLen := by simp [hfin]
      tagv := rfl
      vok := rfl
      h := fun hne => absurd rfl hne
      tag := fun _ => by simp [hfin] }

theorem State.Alike.setVok (ok : Bool) : (s.setVok ok).Alike (s'.setVok ok) := { h with vok := rfl }

/-- `STATUS` mirrors flags alone (R25). -/
theorem State.Alike.statusByte_eq : statusByte s' = statusByte s := by
  simp only [statusByte, h.owner, h.ckeyv, h.noncev, h.mkeyv, h.tagv, h.vok]

/-- The checks read flags and `BITLEN` alone (R201). -/
theorem State.Alike.checks_eq (i : Instr) : checks i s' = checks i s := by
  cases i <;>
    simp only [checks, cipherInitError, macInitError, ownerError, tagError, overflowError, h.owner, h.ckeyv, h.noncev,
      h.mkeyv, h.tagv, h.bitLen]

/-- An accepted command reads only registers that its checks, or the invariant for an open MAC, say are valid. -/
theorem State.Alike.effect (hinv : s.Inv) (i : Instr) (hc : firstError (checks i s) = none) :
    (effect i s).1.Alike (effect i s').1 ∧ (effect i s').2 = (effect i s).2 := by
  have needs := needs_of_accepted hc
  cases i with
  | shaInit => exact ⟨h.setHash _ _, rfl⟩
  | shaUpdate | maUpdate =>
    obtain ⟨ho, -⟩ := needs
    exact ⟨h.absorb _ (by simp [ho]), rfl⟩
  | shaFinal =>
    have ho : s.owner = .hash := needs
    simp only [Machine.effect, ← h.he_eq (by simp [ho]), and_true]
    exact h.setHash _ _
  | ccSetkey => exact ⟨h.loadKey _, rfl⟩
  | ccSetnonce => exact ⟨h.loadNonce _, rfl⟩
  | ccBlock | ccCrypt =>
    obtain ⟨hk, hn⟩ := needs
    exact ⟨h, by simp only [Machine.effect, h.key hk, h.nonce hn]⟩
  | maSetkey => exact ⟨(h.macKeyEngine _).loadMacKey _, rfl⟩
  | maInit => exact ⟨h.openMac needs, rfl⟩
  | maFinal | maFinalx =>
    have hkey := hinv.macKeyed needs
    exact ⟨h.closeMac needs hkey, by simp only [Machine.effect, h.macFinish_eq needs hkey]⟩
  | maVerify =>
    simp only [Machine.effect, ← h.tag needs, and_true]
    exact h.setVok _
  | rdstat => exact ⟨h, by simp only [Machine.effect, h.statusByte_eq]⟩

end

/-- Settles O4: both steps fetch the same command, its checks agree, and so does what it reads. -/
theorem unwrittenRegistersAreUnobservable : Obligations.UnwrittenRegistersAreUnobservable := by
  intro s s' t hinv h hst
  have hfetch : s'.fetch = s.fetch := by simp only [State.fetch, h.cmdIn]
  obtain ⟨hf, hs⟩ | ⟨op, rest, hf, hs⟩ | ⟨i, rest, hf, hs⟩ := step_cases s <;> rw [hs] at hst
  · cases hst
    exact ⟨s', step_of_incomplete (hfetch.trans hf), h⟩
  · cases hst
    exact ⟨_, step_of_illegalOpcode (hfetch.trans hf), (h.takeCommand rest).emit _ _ _⟩
  · have htake := h.takeCommand rest
    rw [step_of_command (hfetch.trans hf)]
    exact exec_related (fun _ _ st op pl hs => hs.emit st op pl) htake (htake.checks_eq i)
      (htake.effect (hinv.takeCommand rest) i) hst

end Sys2Proof.Machine
end

section
/-! PROOFS. The command stream (20_memory.md): bytes appended to `CMD_IN` through the decoder, a command and a step;
then the statements about what a step takes from `CMD_IN` and when it holds. -/

namespace Sys2Proof

/-! ## The decoder on a longer stream -/

/-- What stands at the front of the stream once `more` follows it (R41). -/
def Decoded.followedBy (more : List Byte) : Decoded → Decoded
  | .incomplete => .incomplete
  | .illegalOpcode op rest => .illegalOpcode op (rest ++ more)
  | .command i rest => .command i (rest ++ more)

/-- The decoder waits exactly when no frame can be cut (R57). -/
theorem decode_eq_incomplete {bs : List Byte} : decode bs = .incomplete ↔ frameCommand bs = none := by
  cases hf : frameCommand bs with
  | none => simp [decode, hf]
  | some f => cases hsel : selectCommand f.opcode f.rsv f.payload <;> simp [decode, hf, hsel]

/-- Bytes behind a whole command change only what follows it (R41). -/
theorem decode_append {bs : List Byte} (more : List Byte) (h : decode bs ≠ .incomplete) :
    decode (bs ++ more) = (decode bs).followedBy more := by
  cases hf : frameCommand bs with
  | none => exact absurd (decode_eq_incomplete.mpr hf) h
  | some f =>
    simp only [decode, hf, frameCommand_append bs more f hf]
    cases selectCommand f.opcode f.rsv f.payload <;> rfl

namespace Machine

theorem State.holding_iff {s : State} : s.holding = true ↔ s.fetch = .incomplete := beq_iff_eq

/-! ## A command and a step on a longer stream -/

/-- No check reads `CMD_IN`. -/
theorem checks_hostAppend (bs : List Byte) (i : Instr) (s : State) : checks i (hostAppend bs s) = checks i s := by
  cases i <;> rfl

theorem macKeyEngine_hostAppend (bs p : List Byte) (s : State) :
    macKeyEngine p (hostAppend bs s) = hostAppend bs (macKeyEngine p s) := by
  have howner : (hostAppend bs s).owner = s.owner := rfl
  simp only [macKeyEngine, howner]
  split_ifs <;> rfl

/-- No effect reads or writes `CMD_IN` (R54). -/
theorem effect_hostAppend (bs : List Byte) (i : Instr) (s : State) :
    (effect i (hostAppend bs s)).1 = hostAppend bs (effect i s).1 ∧
      (effect i (hostAppend bs s)).2 = (effect i s).2 := by
  cases i with
  | maSetkey _ p => exact ⟨congrArg (State.loadMacKey (macKeyBlock p)) (macKeyEngine_hostAppend bs p s), rfl⟩
  | _ => exact ⟨rfl, rfl⟩

/-- A command commutes with an append (R41). -/
theorem exec_hostAppend (bs : List Byte) {i : Instr} {s t : State} (h : exec i s = .next t) :
    exec i (hostAppend bs s) = .next (hostAppend bs t) := by
  obtain ⟨_, ht, rfl⟩ := exec_related (R := fun s s' => s' = hostAppend bs s) (fun _ _ _ _ _ hs => hs ▸ rfl) rfl
    (checks_hostAppend bs i s) (fun _ => effect_hostAppend bs i s) h
  exact ht

/-- The whole command at the front of `CMD_IN` stays there when bytes are appended. -/
theorem State.fetch_hostAppend (bs : List Byte) {s : State} (h : s.fetch ≠ .incomplete) :
    (hostAppend bs s).fetch = s.fetch.followedBy bs :=
  decode_append bs h

/-! ## The statements -/

/-- Settles O11: the same command is fetched, and its rejection or execution commutes with the append. -/
theorem appendedBytesDoNotDisturbACommand : Obligations.AppendedBytesDoNotDisturbACommand := by
  intro s bs hbusy
  have hwhole : s.fetch ≠ .incomplete := fun hf => by simp [State.holding_iff.mpr hf] at hbusy
  have happ := State.fetch_hostAppend bs hwhole
  obtain ⟨hf, -⟩ | ⟨op, rest, hf, hs⟩ | ⟨i, rest, hf, hs⟩ := step_cases s <;> rw [hf] at happ
  · exact absurd hf hwhole
  · exact ⟨_, hs, step_of_illegalOpcode happ⟩
  · obtain ⟨t, ht⟩ := exec_next i (s.takeCommand rest)
    exact ⟨t, hs.trans ht, (step_of_command happ).trans (exec_hostAppend bs ht)⟩

/-- Settles O8: the case of a command in the step. -/
theorem stepRunsTheDecodedCommand : Obligations.StepRunsTheDecodedCommand :=
  fun _ _ _ h => step_of_command h

/-- Settles O10: both shapes of an incomplete command are those in which no frame can be cut. -/
theorem incompleteCommandHolds : Obligations.IncompleteCommandHolds := by
  intro s hshort
  have hf : s.fetch = .incomplete := decode_eq_incomplete.mpr ((frameCommand_eq_none s.cmdIn).mpr hshort)
  exact ⟨State.holding_iff.mpr hf, step_of_incomplete hf⟩

end Machine

end Sys2Proof
end

section
/-! PROOFS. The format (30_encoding.md R60 to R71): what the decoder answers for a whole command, how long a response
is, and which header checks a well-formed command passes; then the statements about encoding, framing and headers. -/

namespace Sys2Proof

/-! ## The decoder on a whole command -/

/-- A header whose opcode selects a command, with its payload, decodes to that command and what follows (R62, R63). -/
theorem decode_of_select_eq_some {op rsv b2 b3 : Byte} {p : List Byte} {i : Instr} (rest : List Byte)
    (hlen : p.length = be16 b2 b3) (hsel : selectCommand op rsv p = some i) :
    decode (op :: rsv :: b2 :: b3 :: (p ++ rest)) = .command i rest := by
  simp only [decode, frameCommand_whole _ _ _ _ _ _ hlen, hsel]

/-- A header whose opcode selects nothing decodes to that opcode and what follows its payload (R62, R68). -/
theorem decode_of_select_eq_none {op rsv b2 b3 : Byte} {p : List Byte} (rest : List Byte)
    (hlen : p.length = be16 b2 b3) (hsel : selectCommand op rsv p = none) :
    decode (op :: rsv :: b2 :: b3 :: (p ++ rest)) = .illegalOpcode op rest := by
  simp only [decode, frameCommand_whole _ _ _ _ _ _ hlen, hsel]

/-- A decoded command was selected by the opcode of the frame at the front (R63). -/
theorem decode_eq_command {bs rest : List Byte} {i : Instr} (h : decode bs = .command i rest) :
    ∃ f, frameCommand bs = some f ∧ selectCommand f.opcode f.rsv f.payload = some i ∧ f.rest = rest := by
  cases hf : frameCommand bs with
  | none => simp [decode, hf] at h
  | some f =>
    cases hsel : selectCommand f.opcode f.rsv f.payload with
    | none => simp [decode, hf, hsel] at h
    | some j =>
      obtain ⟨rfl, hrest⟩ : j = i ∧ f.rest = rest := by simpa [decode, hf, hsel] using h
      exact ⟨f, rfl, hsel, hrest⟩

theorem Instr.encodable_iff {i : Instr} : i.encodable = true ↔ i.len ≤ Config.maxPayload := decide_eq_true_iff

/-! ## Encoding and decoding -/

/-- Settles O5: the encoder's `LEN` bytes read back as the payload's length, and a command selects itself. -/
theorem decodeAfterEncode : Obligations.DecodeAfterEncode := by
  intro i rest henc
  have hlen := be16_of_toBE16 i.len (Instr.encodable_iff.mp henc)
  exact decode_of_select_eq_some rest hlen.symm (selectCommand_self i)

/-- Settles O6: the frame holds the bytes decoded, and its two `LEN` bytes are those of the payload's length. -/
theorem encodeAfterDecode : Obligations.EncodeAfterDecode := by
  intro bs rest i h
  obtain ⟨f, hf, hsel, rfl⟩ := decode_eq_command h
  obtain ⟨b2, b3, rfl, hlen⟩ := frameCommand_eq_some bs f hf
  obtain ⟨hop, hrsv, hp⟩ := selectCommand_eq_some _ _ _ _ hsel
  rw [← hp] at hlen ⊢
  refine ⟨?_, Instr.encodable_iff.mpr ?_⟩
  · simp only [encode, Instr.len, hlen, toBE16_be16, hop, hrsv, List.cons_append, List.nil_append]
  · have := be16_lt b2 b3
    simp only [Instr.len, Config.maxPayload]
    omega

/-- Settles O7: the decoder run on six words. -/
theorem wordsDecodeAsTheTableSays : Obligations.WordsDecodeAsTheTableSays := by
  unfold Obligations.WordsDecodeAsTheTableSays
  decide

namespace Machine

/-! ## A step on a whole command -/

/-- A response is as long as the table of R65 says. -/
theorem effect_payload_length (i : Instr) (s : State) : (effect i s).2.length = Reference.responseLen i := by
  cases i <;> simp [effect, Reference.responseLen]

/-- A response fits the format if its command does (R65, R71). -/
theorem responseLen_le {i : Instr} (h : i.payload.length ≤ 65535) : Reference.responseLen i ≤ 65535 := by
  cases i with
  | ccCrypt => exact h
  | _ => simp [Reference.responseLen]

/-- Settles O9: the header selects a command, which is rejected or accepted, or it selects none. -/
theorem stepConsumesOneCommandWhateverItsHeader : Obligations.StepConsumesOneCommandWhateverItsHeader := by
  intro s op rsv b2 b3 p rest hin hlen
  cases hsel : selectCommand op rsv p with
  | none =>
    have hf : s.fetch = .illegalOpcode op rest := by rw [State.fetch, hin, decode_of_select_eq_none rest hlen hsel]
    exact ⟨_, .errOpcode, [], step_of_illegalOpcode hf, rfl, by decide, fun _ => rfl, rfl⟩
  | some i =>
    have hf : s.fetch = .command i rest := by rw [State.fetch, hin, decode_of_select_eq_some rest hlen hsel]
    obtain ⟨rfl, -, rfl⟩ := selectCommand_eq_some _ _ _ _ hsel
    rw [step_of_command hf]
    obtain ⟨e, -, he⟩ | ⟨-, he⟩ := exec_cases i (s.takeCommand rest)
    · exact ⟨_, e, [], he, rfl, by decide, fun _ => rfl, rfl⟩
    · have hfit : i.payload.length ≤ 65535 := Nat.le_of_lt_succ (hlen ▸ be16_lt b2 b3)
      have hpl := (effect_payload_length i (s.takeCommand rest)).trans_le (responseLen_le hfit)
      refine ⟨_, .ok, _, he, ?_, hpl, nofun, ?_⟩
      · rw [State.emit_cmdIn, effect_cmdIn, State.takeCommand_cmdIn]
      · rw [State.emit_rspOut, effect_rspOut, State.takeCommand_rspOut, responseBytes_eq]

/-- Settles O13: an opcode outside the map selects nothing, and the step rejects it. -/
theorem illegalOpcodesAreRejected : Obligations.IllegalOpcodesAreRejected := by
  intro s op rsv b2 b3 p rest hop hin hlen
  have hf : s.fetch = .illegalOpcode op rest := by
    rw [State.fetch, hin, decode_of_select_eq_none rest hlen ((selectCommand_eq_none op rsv p).mpr hop)]
  exact step_of_illegalOpcode hf

/-! ## The header checks (R63, R67, R69) -/

/-- A header error: the opcode, the `rsv` byte or `LEN` is wrong (R63). -/
def Status.IsHeaderError (st : Status) : Prop := st = .errOpcode ∨ st = .errFormat ∨ st = .errLength

/-- A zero `rsv` byte and a legal `LEN` leave only errors of the command's own rule (R201). -/
theorem verdict_not_headerError {i : Instr} (s : State) (hrsv : i.rsv = 0) (hlen : i.legalLen = true) :
    ¬ (Reference.verdict i s).IsHeaderError := by
  unfold Reference.verdict Status.IsHeaderError
  rw [if_neg (not_not.mpr hrsv), if_neg (by simp [hlen])]
  cases i <;> (repeat' split) <;> decide

/-- The response of a command begins with the status of the error matrix and the echo of its opcode (R64, R201). -/
theorem exec_answers_verdict (i : Instr) (s : State) :
    ∃ t rsp, exec i s = .next t ∧ t.rspOut = s.rspOut ++ ((Reference.verdict i s).code :: i.opcode :: rsp) := by
  obtain ⟨e, hc, he⟩ | ⟨hc, he⟩ := exec_cases i s
  · obtain ⟨-, rfl⟩ : Reference.verdict i s ≠ .ok ∧ Reference.verdict i s = e := by
      simpa [firstError_checks] using hc
    exact ⟨_, _, he, rfl⟩
  · rw [accepted_iff.mp hc]
    exact ⟨_, _, he, congrArg (· ++ _) (effect_rspOut i s)⟩

/-- Settles O16: the status is the error matrix's, which has no header error for the command. -/
theorem wellFormedCommandsPassTheHeaderChecks : Obligations.WellFormedCommandsPassTheHeaderChecks := by
  intro i s hwf
  obtain ⟨⟨hrsv, hlen⟩, -⟩ : (i.rsv = 0 ∧ i.legalLen = true) ∧ i.encodable = true := by
    simpa [Instr.wellFormed] using hwf
  obtain ⟨t, rsp, ht, hrsp⟩ := exec_answers_verdict i s
  have hno := verdict_not_headerError s hrsv hlen
  refine ⟨t, _, rsp, ht, hrsp, fun h => hno ?_, fun h => hno ?_, fun h => hno ?_⟩
  · exact .inl (Status.code_injective _ _ h)
  · exact .inr (.inl (Status.code_injective _ _ h))
  · exact .inr (.inr (Status.code_injective _ _ h))

/-! ## What the expansions hold (R60, R84 to R89) -/

/-- The pieces of a string are payloads that the format can carry, under a command that takes any payload. -/
theorem chunks_encodable {update : List Byte → Instr} (hupdate : ∀ p, (update p).payload = p) (m : List Byte) :
    ∀ i ∈ (chunks m).map update, i.encodable = true := by
  simp only [List.mem_map, forall_exists_index, and_imp]
  rintro _ p hp rfl
  rw [Instr.encodable_iff, Instr.len, hupdate]
  exact chunks_length m p hp

/-- The commands of one MAC can be carried if its key and its last command can. -/
theorem macCommands_encodable {final : Instr} {key : List Byte} (data : List Byte) (hfinal : final.encodable = true)
    (hkey : key.length ≤ 65535) : ∀ i ∈ macCommands final key data, i.encodable = true := by
  simp only [macCommands, List.mem_append, List.forall_mem_cons, List.not_mem_nil, or_imp, forall_and]
  exact ⟨⟨⟨Instr.encodable_iff.mpr hkey, rfl, nofun⟩, chunks_encodable (fun _ => rfl) data⟩, hfinal, nofun⟩

/-- Settles O57: every payload is a piece, empty, or an operand of at most 65535 bytes. -/
theorem pseudoExpansionsAreEncodable : Obligations.PseudoExpansionsAreEncodable := by
  intro m key nonce data text ctr hkey hnonce htext
  refine ⟨?_, ?_, ?_, ?_, ?_, ?_⟩
  · simp only [pseudoSha256, List.mem_append, List.forall_mem_cons, List.not_mem_nil, or_imp, forall_and]
    exact ⟨⟨⟨rfl, nofun⟩, chunks_encodable (fun _ => rfl) m⟩, rfl, nofun⟩
  · simp only [pseudoCcKsblock, List.forall_mem_cons]
    exact ⟨Instr.encodable_iff.mpr hkey, Instr.encodable_iff.mpr hnonce, rfl, nofun⟩
  · intro cmds h
    obtain ⟨hdata, ⟨⟩⟩ := Option.ite_none_right_eq_some.mp h
    simp only [List.forall_mem_cons]
    exact ⟨Instr.encodable_iff.mpr hkey, Instr.encodable_iff.mpr hnonce, Instr.encodable_iff.mpr hdata, nofun⟩
  · intro cmds h
    obtain ⟨hm, ⟨⟩⟩ := Option.ite_none_right_eq_some.mp h
    exact macCommands_encodable data rfl hm
  · intro cmds h
    obtain ⟨hm, ⟨⟩⟩ := Option.ite_none_right_eq_some.mp h
    exact macCommands_encodable data rfl hm
  · simp only [pseudoHmacVerify, List.mem_append, List.forall_mem_cons, List.not_mem_nil, or_imp, forall_and]
    exact ⟨⟨⟨rfl, nofun⟩, chunks_encodable (fun _ => rfl) data⟩, rfl, Instr.encodable_iff.mpr htext, nofun⟩

end Machine

end Sys2Proof
end

section
/-! PROOFS. The Hash Engine's registers against SHA-256 of whole messages (40_hash_engine.md R107, R108, R114): chaining
over a string that grows, the registers as a function of the bytes absorbed so far, and the padding. -/

namespace Sys2Proof

namespace Reference

open Machine

/-! ## Blocks and chaining of a string that grows -/

theorem blockAt_getElem (p : List Byte) (j i : Nat) (h : i < 64) : (blockAt p j)[i] = p.getD (64 * j + i) 0 := by
  simp [blockAt]

/-- A block that the string covers does not depend on what follows. -/
theorem blockAt_append {p : List Byte} {j : Nat} (q : List Byte) (h : 64 * (j + 1) ≤ p.length) :
    blockAt (p ++ q) j = blockAt p j := by
  ext1 i hi
  rw [blockAt_getElem, blockAt_getElem, List.getD_append _ _ _ _ (by omega)]

/-- Above the string's end a block is zero. -/
theorem blockAt_of_le {p : List Byte} {j : Nat} (h : p.length ≤ 64 * j) : blockAt p j = zeroBlock := by
  ext1 i hi
  rw [blockAt_getElem, List.getD_eq_default _ _ (by omega), zeroBlock_getElem]

/-- Zeros behind the string are not seen in its blocks. -/
theorem blockAt_append_zeros (p : List Byte) (z j : Nat) : blockAt (p ++ List.replicate z 0) j = blockAt p j := by
  ext1 i hi
  simp only [blockAt_getElem, List.getD_eq_getElem?_getD, List.getElem?_append, List.getElem?_replicate]
  split_ifs <;> simp_all

/-- One more byte is one more position of the block that it stands in. -/
theorem blockAt_append_singleton (p : List Byte) (b : Byte) :
    blockAt (p ++ [b]) (p.length / 64)
      = (blockAt p (p.length / 64)).set (p.length % 64) b (Nat.mod_lt _ (by decide)) := by
  ext1 i hi
  rw [Vector.getElem_set, blockAt_getElem, blockAt_getElem]
  split_ifs with hlast
  · rw [List.getD_append_right _ _ _ _ (by omega), ← hlast, Nat.div_add_mod, Nat.sub_self]
    rfl
  · rcases Nat.lt_or_gt_of_ne hlast with habove | hbelow
    · rw [List.getD_eq_default _ _ (by simp; omega), List.getD_eq_default _ _ (by omega)]
    · rw [List.getD_append _ _ _ _ (by omega)]

/-- The whole blocks of a string chain alike whatever follows it. -/
theorem foldl_compress_append (h : Vector Word 8) (p q : List Byte) :
    (List.range (p.length / 64)).foldl (fun h j => compress h (blockAt (p ++ q) j)) h = chain h p := by
  refine List.foldl_ext _ _ _ fun g j hj => ?_
  have hcovered := List.mem_range.mp hj
  rw [blockAt_append q (by omega)]

/-- Bytes that complete no block leave the chaining value (R107). -/
theorem chain_append_short (h : Vector Word 8) {p q : List Byte} (hq : p.length % 64 + q.length < 64) :
    chain h (p ++ q) = chain h p := by
  have hcount : (p ++ q).length / 64 = p.length / 64 := by rw [List.length_append]; omega
  rw [chain, hcount, foldl_compress_append]

/-- Bytes that complete one block chain it (R107). -/
theorem chain_append_block (h : Vector Word 8) {p q : List Byte} (hq : p.length % 64 + q.length = 64) :
    chain h (p ++ q) = compress (chain h p) (blockAt (p ++ q) (p.length / 64)) := by
  have hcount : (p ++ q).length / 64 = p.length / 64 + 1 := by rw [List.length_append]; omega
  rw [chain, hcount, List.range_succ, List.foldl_append, foldl_compress_append]
  rfl

/-! ## The registers after a byte string -/

/-- The engine that has taken the bytes `p` since the chaining value `h`, with `l` bits counted: the whole blocks of
`p` compressed, and the rest waiting in the buffer (R11 to R14). -/
def engineAfter (h : Vector Word 8) (p : List Byte) (l : BitVec 64) : HashRegs where
  h := chain h p
  buf := blockAt p (p.length / 64)
  bufLen := ⟨p.length % 64, Nat.mod_lt _ (by decide)⟩
  bitLen := l

/-- One byte more in the engine is one byte more in the string (R107). -/
theorem heAbsorbByte_engineAfter (h : Vector Word 8) (p : List Byte) (l : BitVec 64) (b : Byte) :
    heAbsorbByte (engineAfter h p l) b = engineAfter h (p ++ [b]) l := by
  have hset := blockAt_append_singleton p b
  by_cases room : p.length % 64 < 63
  · have hdiv : (p.length + 1) / 64 = p.length / 64 := by omega
    have hmod : (p.length + 1) % 64 = p.length % 64 + 1 := by omega
    have hchain : chain h (p ++ [b]) = chain h p := chain_append_short h (by simp; omega)
    rw [heAbsorbByte_room _ _ room]
    simp only [engineAfter, List.length_append, List.length_singleton, hchain, hdiv, hmod, hset]
  · have hend : p.length + 1 = 64 * (p.length / 64 + 1) := by omega
    have hchain := chain_append_block h (p := p) (q := [b]) (by simp only [List.length_singleton]; omega)
    have hempty : blockAt (p ++ [b]) (p.length / 64 + 1) = zeroBlock := blockAt_of_le (by simp; omega)
    have hdiv : (p.length + 1) / 64 = p.length / 64 + 1 := by omega
    have hmod : (p.length + 1) % 64 = 0 := by omega
    rw [heAbsorbByte_full _ _ (by simp only [engineAfter]; omega)]
    simp only [engineAfter, List.length_append, List.length_singleton, hchain, hdiv, hmod, hset, hempty]
    rfl

/-- Absorbing a string appends it (R107). -/
theorem heAbsorbBytes_engineAfter (h : Vector Word 8) (p s : List Byte) (l : BitVec 64) :
    heAbsorbBytes (engineAfter h p l) s = engineAfter h (p ++ s) l := by
  induction s generalizing p with
  | nil => rw [heAbsorbBytes_nil, List.append_nil]
  | cons b s ih => rw [heAbsorbBytes_cons, heAbsorbByte_engineAfter, ih, List.append_assoc, List.singleton_append]

theorem heAbsorb_engineAfter (h : Vector Word 8) (p s : List Byte) (l : BitVec 64) :
    heAbsorb (engineAfter h p l) s = engineAfter h (p ++ s) (l + BitVec.ofNat 64 (8 * s.length)) := by
  simp only [heAbsorb, heAbsorbBytes_engineAfter]
  rfl

theorem waiting_length (r : HashRegs) : (waiting r).length = r.bufLen.val := by
  rw [waiting, List.length_take, Vector.length_toList, Nat.min_eq_left r.bufLen.isLt.le]

/-- An engine whose buffer is clear above its fill is the one that took its waiting bytes (R16 (b)). -/
theorem engineAfter_waiting {r : HashRegs} (hclear : r.bufClear) : engineAfter r.h (waiting r) r.bitLen = r := by
  have hfill := r.bufLen.isLt
  have hchain : chain r.h (waiting r) = r.h := by simp [chain, waiting_length, Nat.div_eq_of_lt hfill]
  have hbuf : blockAt (waiting r) 0 = r.buf := by
    ext1 i hi
    rw [blockAt_getElem, Nat.mul_zero, Nat.zero_add, waiting, List.getD_eq_getElem?_getD, List.getElem?_take]
    split_ifs with hlt
    · simp [hi]
    · exact (hclear ⟨i, hi⟩ (Nat.le_of_not_lt hlt)).symm
  simp only [engineAfter, waiting_length, hchain, hbuf, Nat.div_eq_of_lt hfill, Nat.mod_eq_of_lt hfill]

/-- `HE_Absorb` is the block-wise absorption of the waiting bytes and the string (R107). -/
theorem heAbsorb_eq_absorb {r : HashRegs} (s : List Byte) (hclear : r.bufClear) : heAbsorb r s = absorb r s := by
  have hblock (p : List Byte) : blockAt p (p.length / 64)
      = Vector.ofFn fun i => (p.drop (64 * (p.length / 64))).getD i.val 0 := by
    simp [blockAt, List.getD_eq_getElem?_getD]
  calc heAbsorb r s = heAbsorb (engineAfter r.h (waiting r) r.bitLen) s := by rw [engineAfter_waiting hclear]
    _ = absorb r s := by rw [heAbsorb_engineAfter, engineAfter, hblock]; rfl

/-! ## The padding (R108) -/

/-- Zeros and the length fill the last block (R108). -/
theorem blockAt_append_length {p : List Byte} {z j : Nat} (l : BitVec 64) (hp : p.length + z = 64 * j + 56) :
    blockAt (p ++ List.replicate z 0 ++ toBE64 l) j = withLength (blockAt p j) l := by
  have hlen : (p ++ List.replicate z 0).length = 64 * j + 56 := by rw [List.length_append, List.length_replicate, hp]
  rw [← blockAt_append_zeros p z j]
  generalize p ++ List.replicate z 0 = q at hlen
  ext1 i hi
  simp only [withLength, Vector.getElem_ofFn, Fin.getElem_fin, blockAt_getElem]
  split_ifs with hlt
  · rw [List.getD_append _ _ _ _ (by omega)]
  · rw [List.getD_append_right _ _ _ _ (by omega), hlen, Nat.add_sub_add_left, toBE64, List.getD_eq_getElem?_getD,
      List.getElem?_map, List.getElem?_range (by omega)]
    rfl

theorem toBE64_length (l : BitVec 64) : (toBE64 l).length = 8 := by simp [toBE64]

/-- Below the threshold the padding completes one block (R108). -/
theorem chain_padding_one (h : Vector Word 8) {p : List Byte} (l : BitVec 64) (hp : p.length % 64 < 56) :
    chain h (p ++ padding p.length l)
      = compress (chain h p) (withLength (blockAt (p ++ [Config.padByte]) (p.length / 64)) l) := by
  rw [chain_append_block h (by simp [padding, toBE64_length]; omega), padding, ← List.append_assoc,
    ← List.append_assoc, blockAt_append_length l (by simp; omega)]

/-- From the threshold on it completes two: the padding byte ends in the first, the second holds zeros and the length
(R108, 90_conflicts.md C2). -/
theorem chain_padding_two (h : Vector Word 8) {p : List Byte} (l : BitVec 64) (hp : 56 ≤ p.length % 64) :
    chain h (p ++ padding p.length l)
      = compress (compress (chain h p) (blockAt (p ++ [Config.padByte]) (p.length / 64))) (withLength zeroBlock l) := by
  obtain ⟨z, hz⟩ : ∃ z, p.length % 64 + 1 + z = 64 := ⟨63 - p.length % 64, by omega⟩
  have hpad : p ++ padding p.length l
      = p ++ ([Config.padByte] ++ List.replicate z 0) ++ (List.replicate 56 0 ++ toBE64 l) := by
    rw [padding, show (119 - p.length % 64) % 64 = z + 56 by omega, List.replicate_add]
    simp only [List.append_assoc]
  have hfirst : chain h (p ++ ([Config.padByte] ++ List.replicate z 0))
      = compress (chain h p) (blockAt (p ++ [Config.padByte]) (p.length / 64)) := by
    rw [chain_append_block h (by simp; omega), ← List.append_assoc, blockAt_append_zeros]
  have hlen : (p ++ ([Config.padByte] ++ List.replicate z 0)).length = 64 * (p.length / 64 + 1) := by simp; omega
  rw [hpad, ← hfirst]
  generalize p ++ ([Config.padByte] ++ List.replicate z 0) = q at hlen
  rw [chain_append_block h (by simp [toBE64_length]; omega), ← List.append_assoc,
    blockAt_append_length l (by omega), blockAt_of_le (by omega)]

/-- The engine's last compressions chain the padding (R108). -/
theorem heFinalWords_engineAfter (h : Vector Word 8) (p : List Byte) (l : BitVec 64) :
    heFinalWords (engineAfter h p l) = chain h (p ++ padding p.length l) := by
  rw [heFinalWords_eq]
  simp only [engineAfter, ← blockAt_append_singleton]
  split_ifs with two
  · exact (chain_padding_two h l two).symm
  · exact (chain_padding_one h l (Nat.lt_of_not_le two)).symm

/-- `HE_Finish` chains the waiting bytes and their padding (R108). -/
theorem heFinalWords_eq_finishWords {r : HashRegs} (hclear : r.bufClear) : heFinalWords r = finishWords r := by
  calc heFinalWords r = heFinalWords (engineAfter r.h (waiting r) r.bitLen) := by rw [engineAfter_waiting hclear]
    _ = finishWords r := by rw [heFinalWords_engineAfter, waiting_length, finishWords]

/-! ## The engine since `HE_Init` (R106, R114) -/

/-- The engine that has taken the bytes `m` since `HE_Init`. -/
def hashing (m : List Byte) : HashRegs := engineAfter sha256IV m (BitVec.ofNat 64 (8 * m.length))

theorem heInit_eq_hashing : heInit = hashing [] := (engineAfter_waiting heInit_bufClear).symm

theorem heAbsorb_hashing (m s : List Byte) : heAbsorb (hashing m) s = hashing (m ++ s) := by
  rw [hashing, heAbsorb_engineAfter, hashing, List.length_append, Nat.mul_add, BitVec.ofNat_add]

theorem heAbsorb_heInit (m : List Byte) : heAbsorb heInit m = hashing m := by
  rw [heInit_eq_hashing, heAbsorb_hashing, List.nil_append]

/-- The words that the engine finishes with are SHA-256 of what it has taken, of any length (R114). -/
theorem heFinalWords_hashing (m : List Byte) : heFinalWords (hashing m) = sha256Words m :=
  heFinalWords_engineAfter _ _ _

/-- The digest answered and the engine released (R109, R114). -/
theorem heFinish_hashing (m : List Byte) : heFinish (hashing m) = (sha256 m, released (sha256Words m)) := by
  rw [heFinish, heFinalWords_hashing]
  rfl

/-- An update counts its bits in `BITLEN` while they fit (R14). -/
theorem hashing_bitLen {m : List Byte} (h : 8 * m.length < 2 ^ 64) : (hashing m).bitLen.toNat = 8 * m.length := by
  rw [hashing, engineAfter, BitVec.toNat_ofNat, Nat.mod_eq_of_lt h]

/-! ## The key block and the end of a MAC (R161, R162, R173) -/

theorem zeroPadded_toList {s : List Byte} (h : s.length ≤ 64) :
    (zeroPadded s).toList = s ++ List.replicate (64 - s.length) 0 := by
  refine List.ext_getElem (by simp; omega) fun i hi _ => ?_
  rw [Vector.getElem_toList, zeroPadded_getElem _ _ (by simpa using hi), List.getElem_append]
  split_ifs with hlt
  · rw [List.getD_eq_getElem _ _ hlt]
  · rw [List.getD_eq_default _ _ (Nat.le_of_not_lt hlt), List.getElem_replicate]

/-- `MA_SETKEY`'s key block is that of R161, for a key of any length. -/
theorem macKeyBlock_toList (k : List Byte) : (macKeyBlock k).toList = keyBlock k := by
  rw [macKeyBlock, keyBlock]
  split_ifs with long
  · rw [heAbsorb_heInit, heFinish_hashing, zeroPadded_toList (by simp), Vector.length_toList]
  · exact zeroPadded_toList (Nat.le_of_not_lt long)

/-- A key of more than 64 bytes and its digest have one key block (R161, R177). -/
theorem keyBlock_sha256 {k : List Byte} (h : 64 < k.length) : keyBlock (sha256 k).toList = keyBlock k := by
  simp [keyBlock, h]

/-- The end of a MAC under the key block of `k` is HMAC-SHA256 (R162, R173). -/
theorem macFinish_hashing {k0 : Vector Byte 64} {k : List Byte} (data : List Byte) (hk : k0.toList = keyBlock k) :
    (macFinish k0 (hashing (padBlock k0 Config.innerPad ++ data))).1 = hmac k data := by
  rw [macFinish_eq, heFinish_hashing, heAbsorb_heInit, heAbsorb_hashing, heFinish_hashing, padBlock, padBlock, hk, hmac]

end Reference

end Sys2Proof
end

section
/-! PROOFS. The pseudo-instructions (30_encoding.md R84 to R90): runs of commands, then the hash, the cipher and the MAC
as runs, and the calls in which the host carries a digest. -/

namespace Sys2Proof.Machine

open Sys2Proof.Reference

/-! ## Runs of commands -/

theorem execAll_cons {i : Instr} {s t : State} (is : List Instr) (h : exec i s = .next t) :
    execAll (i :: is) s = execAll is t := by
  simp only [execAll, h]

theorem execAll_concat {is : List Instr} {i : Instr} {s t u : State} (his : execAll is s = .next t)
    (hi : exec i t = .next u) : execAll (is ++ [i]) s = .next u := by
  rw [execAll_append is [i] s t his, execAll_cons [] hi, execAll]

/-- The responses of a run go to the back of `RSP_OUT` (R42). -/
theorem execAll_rspOut_grows {is : List Instr} {s t : State} (h : execAll is s = .next t) :
    s.rspOut <+: t.rspOut := by
  induction is generalizing s with
  | nil => cases h; exact List.prefix_rfl
  | cons i is ih =>
    obtain ⟨u, hu⟩ := exec_next i s
    rw [execAll_cons is hu] at h
    exact (exec_rspOut_grows hu).trans (ih h)

/-- What is appended after a run is the last that the whole run answers. -/
theorem exists_before_of_execAll {is : List Instr} {s t u : State} {rsp : List Byte} (his : execAll is s = .next t)
    (hrsp : u.rspOut = t.rspOut ++ rsp) : ∃ before, u.rspOut = s.rspOut ++ before ++ rsp := by
  obtain ⟨before, hbefore⟩ := execAll_rspOut_grows his
  exact ⟨before, by rw [hrsp, hbefore]⟩

/-- `update p` absorbs `p` into an engine that `o` holds, if its counter has room (R111, R172). -/
def AbsorbsFor (o : Owner) (update : List Byte → Instr) : Prop :=
  ∀ (p : List Byte) (s : State), s.owner = o → s.he.bitLen.toNat + 8 * p.length < 2 ^ 64 →
    exec (update p) s = .next ((s.absorb p).emit .ok (update p).opcode [])

theorem absorbsFor_shaUpdate : AbsorbsFor .hash (.shaUpdate 0) := fun p s ho hroom =>
  exec_accepted (.shaUpdate 0 p) s (by simpa [checks, firstError_eq_none, ho] using hroom)

theorem absorbsFor_maUpdate : AbsorbsFor .mac (.maUpdate 0) := fun p s ho hroom =>
  exec_accepted (.maUpdate 0 p) s (by simpa [checks, firstError_eq_none, ho] using hroom)

/-- Updates, however the string is cut, take it into the engine and answer a header each (R113). -/
theorem execAll_updates {o : Owner} {update : List Byte → Instr} (hupdate : AbsorbsFor o update)
    (pieces : List (List Byte)) {s : State} {m : List Byte} (ho : s.owner = o) (hhe : s.he = hashing m)
    (hfit : 8 * (m ++ pieces.flatten).length < 2 ^ 64) :
    execAll (pieces.map update) s = .next { s with
      he := hashing (m ++ pieces.flatten)
      rspOut := s.rspOut ++ (pieces.map fun p => responseBytes .ok (update p).opcode []).flatten } := by
  induction pieces generalizing s m with
  | nil => simp [execAll, ← hhe]
  | cons p pieces ih =>
    simp only [List.flatten_cons, ← List.append_assoc] at hfit ⊢
    have hroom : s.he.bitLen.toNat + 8 * p.length < 2 ^ 64 := by
      simp only [List.length_append] at hfit
      rw [hhe, hashing_bitLen (by omega)]
      omega
    have hhe' : (s.absorb p).he = hashing (m ++ p) := by rw [State.absorb_he, hhe, heAbsorb_hashing]
    rw [List.map_cons, execAll_cons _ (hupdate p s ho hroom), ih (s := (s.absorb p).emit .ok _ []) ho hhe' hfit]
    simp [State.emit, State.absorb]

/-! ## SHA-256 (R84, R114) -/

theorem exec_shaInit (s : State) :
    exec (.shaInit 0 []) s = .next ((s.setHash heInit .hash).emit .ok opShaInit []) :=
  exec_accepted (.shaInit 0 []) s rfl

theorem exec_shaFinal {s : State} (ho : s.owner = .hash) :
    exec (.shaFinal 0 []) s
      = .next ((s.setHash (heFinish s.he).2 .none).emit .ok opShaFinal (heFinish s.he).1.toList) := by
  rw [exec_accepted _ _ (by simp [checks, firstError_eq_none, ho])]
  simp only [effect, Instr.opcode]

/-- A hash of a message in any pieces, from any state: what every register holds, and every response (R113, R114). -/
theorem execAll_sha256 (s : State) (pieces : List (List Byte)) (hfit : 8 * pieces.flatten.length < 2 ^ 64) :
    execAll ([Instr.shaInit 0 []] ++ pieces.map (Instr.shaUpdate 0) ++ [Instr.shaFinal 0 []]) s = .next { s with
      he := released (sha256Words pieces.flatten)
      owner := .none
      rspOut := s.rspOut ++ ([0x00, 0x01, 0x00, 0x00] ++ (pieces.map fun _ => [0x00, 0x02, 0x00, 0x00]).flatten
        ++ [0x00, 0x03, 0x00, 0x20] ++ (sha256 pieces.flatten).toList) } := by
  have hupdates := execAll_updates absorbsFor_shaUpdate pieces (s := (s.setHash heInit .hash).emit .ok opShaInit [])
    rfl heInit_eq_hashing hfit
  have hrun := (execAll_cons _ (exec_shaInit s)).trans hupdates
  refine (execAll_concat hrun (exec_shaFinal rfl)).trans ?_
  simp only [heFinish_hashing, List.nil_append, State.emit, State.setHash, responseBytes_eq, Vector.length_toList,
    List.append_assoc]
  rfl

/-- Settles O25: the pieces of `chunks` put together are the message. -/
theorem pseudoSha256ComputesSha256 : Obligations.PseudoSha256ComputesSha256 := by
  intro s m hfit
  have hrun := execAll_sha256 s (chunks m) (by rwa [chunks_flatten])
  rw [chunks_flatten] at hrun
  exact ⟨_, [0x00, 0x01, 0x00, 0x00] ++ ((chunks m).map fun _ => [0x00, 0x02, 0x00, 0x00]).flatten, hrun,
    by simp only [List.append_assoc]⟩

/-- After `SHA256 m` the host finds the digest of `m` in the last response (R81, R84). -/
theorem execAll_pseudoSha256_lastDigest (s : State) {m : List Byte} (hfit : 8 * m.length < 2 ^ 64) :
    ∃ t, execAll (pseudoSha256 m) s = .next t ∧ t.lastDigest = (sha256 m).toList := by
  obtain ⟨t, before, ht, hrsp⟩ := pseudoSha256ComputesSha256 s m hfit
  exact ⟨t, ht, t.lastDigest_of_rspOut _ _ hrsp⟩

/-! ## The operands of the cipher (R72, R143) -/

theorem le32_eq_ofNat (b0 b1 b2 b3 : Byte) :
    le32 b0 b1 b2 b3
      = BitVec.ofNat 32 (b0.toNat + b1.toNat * 2 ^ 8 + b2.toNat * 2 ^ 16 + b3.toNat * 2 ^ 24) := by
  apply BitVec.eq_of_toNat_eq
  simp only [le32, BitVec.toNat_append, BitVec.toNat_ofNat]
  rw [← Nat.shiftLeft_add_eq_or_of_lt b2.isLt, ← Nat.shiftLeft_add_eq_or_of_lt b1.isLt,
    ← Nat.shiftLeft_add_eq_or_of_lt b0.isLt]
  simp only [Nat.shiftLeft_eq]
  omega

/-- A payload word is the number of its four bytes, the first the least significant (R8, R72). -/
theorem payloadWord_eq_le32At (p : List Byte) (i : Nat) : payloadWord p i = le32At p i := le32_eq_ofNat _ _ _ _

theorem keyOperand_eq (p : List Byte) : keyOperand p = Vector.ofFn fun i => le32At p i.val := by
  simp only [keyOperand, payloadWord_eq_le32At]

theorem nonceOperand_eq (p : List Byte) : nonceOperand p = Vector.ofFn fun i => le32At p i.val := by
  simp only [nonceOperand, payloadWord_eq_le32At]

/-- A counter written little-endian reads back (R8, R85). -/
theorem counterOperand_toLE32 (w : Word) : counterOperand (toLE32 w) = w := by
  have hbytes : counterOperand (toLE32 w) = le32 (leByte w 0) (leByte w 1) (leByte w 2) (leByte w 3) := rfl
  apply BitVec.eq_of_toNat_eq
  simp only [hbytes, le32_eq_ofNat, leByte, BitVec.toNat_ofNat, BitVec.toNat_setWidth, BitVec.toNat_ushiftRight,
    Nat.shiftRight_eq_div_pow]
  omega

/-- Byte `i` of the XOR of blocks is the input's and the keystream's at its position (R143, R145). -/
theorem ccXorBlocks_getElem? (key : Vector Word 8) (nonce : Vector Word 3) {nb i : Nat} (j : Nat) {p : List Byte}
    (hcover : p.length ≤ 64 * nb) (hi : i < p.length) :
    (ccXorBlocks key nonce nb j p)[i]?
      = some (p.getD i 0 ^^^ (ccKeystreamBlock key nonce (BitVec.ofNat 32 (j + i / 64))).toList.getD (i % 64) 0) := by
  induction nb generalizing i j p with
  | zero => omega
  | succ nb ih =>
    rw [ccXorBlocks]
    by_cases hfirst : i < 64
    · rw [List.getElem?_append_left (by simp; omega), List.getElem?_zipWith]
      simp [Nat.div_eq_of_lt hfirst, Nat.mod_eq_of_lt hfirst, hfirst, hi]
    · obtain ⟨i, rfl⟩ := Nat.exists_eq_add_of_le (Nat.le_of_not_lt hfirst)
      have hlen : (List.zipWith (· ^^^ ·) (p.take 64) (ccKeystreamBlock key nonce (BitVec.ofNat 32 j)).toList).length
          = 64 := by simp; omega
      have hpos : (64 + i) / 64 = 1 + i / 64 := by omega
      rw [List.getElem?_append_right (by omega), hlen, Nat.add_sub_cancel_left, ih (j + 1) (by simp; omega)
        (by simp; omega), hpos, ← Nat.add_assoc, Nat.add_mod_left]
      simp [List.getD_eq_getElem?_getD]

/-- `CC_CRYPT` is position-wise (R143, R145). -/
theorem ccCryptBytes_eq (s : State) (p : List Byte) :
    ccCryptBytes s.key s.nonce p = (List.range p.length).map (cryptByte s p) := by
  refine List.ext_getElem? fun i => ?_
  by_cases hi : i < p.length
  · rw [ccCryptBytes, ccXorBlocks_getElem? _ _ 0 (by omega) hi, List.getElem?_map, List.getElem?_range hi,
      Nat.zero_add]
    rfl
  · rw [List.getElem?_eq_none (by simp; omega), List.getElem?_eq_none (by simp; omega)]

/-! ## The cipher (R85, R86) -/

/-- The state after `CC_SETKEY key` and `CC_SETNONCE nonce`, both accepted. -/
def State.cipherLoaded (key nonce : List Byte) (s : State) : State :=
  (((s.loadKey (keyOperand key)).emit .ok opCcSetkey []).loadNonce (nonceOperand nonce)).emit .ok opCcSetnonce []

theorem State.cipherLoaded_rspOut (key nonce : List Byte) (s : State) :
    (s.cipherLoaded key nonce).rspOut = s.rspOut ++ [0x00, 0x10, 0x00, 0x00, 0x00, 0x11, 0x00, 0x00] :=
  List.append_assoc _ _ _

theorem execAll_cipherLoads (s : State) {key nonce : List Byte} (i : Instr) (hkey : key.length = 32)
    (hnonce : nonce.length = 12) :
    execAll [.ccSetkey 0 key, .ccSetnonce 0 nonce, i] s = exec i (s.cipherLoaded key nonce) := by
  rw [execAll_cons _ (exec_accepted _ _ (by simp [checks, firstError_eq_none, hkey])),
    execAll_cons _ (exec_accepted _ _ (by simp [checks, firstError_eq_none, hnonce]))]
  obtain ⟨t, ht⟩ := exec_next i (s.cipherLoaded key nonce)
  exact (execAll_cons [] ht).trans ht.symm

/-- Settles O35: the loads leave the operands in `KEY` and `NONCE`, and the last command reads them there. -/
theorem pseudoCipherCallsUseTheirOperands : Obligations.PseudoCipherCallsUseTheirOperands := by
  intro s key nonce input ctr hkey hnonce
  have hblock := exec_accepted (.ccBlock 0 (toLE32 ctr)) (s.cipherLoaded key nonce) rfl
  have hcrypt := exec_accepted (.ccCrypt 0 input) (s.cipherLoaded key nonce) rfl
  refine ⟨_, keyOperand key, nonceOperand nonce, [0x00, 0x10, 0x00, 0x00, 0x00, 0x11, 0x00, 0x00],
    keyOperand_eq key, nonceOperand_eq nonce, (execAll_cipherLoads s _ hkey hnonce).trans hblock, ?_, fun hfit => ?_,
    fun hlong => ?_⟩
  · rw [State.emit_rspOut, effect_rspOut, State.cipherLoaded_rspOut, responseBytes_eq, effect, counterOperand_toLE32,
      Vector.length_toList]
    simp only [List.append_assoc]
    rfl
  · refine ⟨_, _, if_pos hfit, if_pos hfit, (execAll_cipherLoads s _ hkey hnonce).trans hcrypt, ?_⟩
    rw [State.emit_rspOut, effect_rspOut, State.cipherLoaded_rspOut, responseBytes_eq, effect, ccCryptBytes_length,
      ccCryptBytes_eq]
    simp only [List.append_assoc]
    rfl
  · exact ⟨if_neg (Nat.not_le_of_lt hlong), if_neg (Nat.not_le_of_lt hlong)⟩

/-! ## One digest as both keys (R90, R241) -/

theorem macKeyEngine_key (p : List Byte) (s : State) : (macKeyEngine p s).key = s.key := by
  rw [macKeyEngine_frame, State.setHash_key]

theorem macKeyEngine_ckeyv (p : List Byte) (s : State) : (macKeyEngine p s).ckeyv = s.ckeyv := by
  rw [macKeyEngine_frame, State.setHash_ckeyv]

theorem exec_maSetkey (k : List Byte) (s : State) :
    exec (.maSetkey 0 k) s
      = .next (((macKeyEngine k s).loadMacKey (macKeyBlock k)).emit .ok opMaSetkey []) :=
  exec_accepted (.maSetkey 0 k) s rfl

/-- Settles O36: `MA_SETKEY` leaves the cipher's key, and a key of 32 bytes is its own key block but for the zeros. -/
theorem oneDigestLoadsBothKeys : Obligations.OneDigestLoadsBothKeys := by
  intro s d hd
  have hsetkey := exec_accepted (.ccSetkey 0 d) s (by simp [checks, firstError_eq_none, hd])
  refine ⟨_, (execAll_cons _ hsetkey).trans (execAll_cons [] (exec_maSetkey d _)), ?_, rfl, fun i => ?_, ?_⟩
  · simp [macKeyEngine_ckeyv, effect]
  · simp [macKeyEngine_key, effect, payloadWord_eq_le32At]
  · simp [macKeyBlock_toList, keyBlock, hd]

/-- Settles O56: the digest that the host carries is SHA-256 of the secret, and it is loaded as both keys. -/
theorem deriveKeysLoadsTheDigestOfTheSecret : Obligations.DeriveKeysLoadsTheDigestOfTheSecret := by
  intro s secret hfit
  obtain ⟨t, ht, hdigest⟩ := execAll_pseudoSha256_lastDigest s hfit
  rw [callDeriveKeys, callWithDigest_next _ _ _ _ ht, hdigest]
  exact oneDigestLoadsBothKeys t _ Vector.length_toList

/-! ## The MAC (R87 to R89, R162) -/

theorem exec_maInit {s : State} (hkey : s.mkeyv = true) :
    exec (.maInit 0 []) s = .next (s.openMac.emit .ok opMaInit []) :=
  exec_accepted (.maInit 0 []) s (by simp [checks, firstError_eq_none, hkey])

/-- `final` ends a MAC and answers `text` of the tag (R173, R174). -/
def EndsMac (final : Instr) (text : Vector Byte 32 → List Byte) : Prop :=
  ∀ s : State, s.owner = .mac →
    exec final s = .next (s.closeMac.emit .ok final.opcode (text (macFinish s.k0 s.he).1))

theorem endsMac_maFinal : EndsMac (.maFinal 0 []) Vector.toList := fun s ho =>
  exec_accepted (.maFinal 0 []) s (by simp [checks, firstError_eq_none, ho])

theorem endsMac_maFinalx : EndsMac (.maFinalx 0 []) (hexText ·.toList) := fun s ho =>
  exec_accepted (.maFinalx 0 []) s (by simp [checks, firstError_eq_none, ho])

/-- A MAC opened under the key block of `k` that has taken its data ends in HMAC-SHA256 (R162). -/
theorem execAll_macStream {s : State} {k : List Byte} (pieces : List (List Byte)) (hkey : s.mkeyv = true)
    (hk : s.k0.toList = keyBlock k) (hfit : 8 * (64 + pieces.flatten.length) < 2 ^ 64) :
    ∃ t, execAll ([Instr.maInit 0 []] ++ pieces.map (Instr.maUpdate 0)) s = .next t ∧ t.owner = .mac ∧
      (macFinish t.k0 t.he).1 = hmac k pieces.flatten := by
  have hfit' : 8 * (padBlock s.k0 Config.innerPad ++ pieces.flatten).length < 2 ^ 64 := by
    rwa [List.length_append, padBlock_length]
  have hupdates := execAll_updates absorbsFor_maUpdate pieces (s := s.openMac.emit .ok opMaInit []) rfl
    (heAbsorb_heInit _) hfit'
  exact ⟨_, (execAll_cons _ (exec_maInit hkey)).trans hupdates, rfl, macFinish_hashing _ hk⟩

/-- One MAC from any state, under a key of any length and over data in any pieces (R161, R162). -/
theorem execAll_macPieces {final : Instr} {text : Vector Byte 32 → List Byte} (hfinal : EndsMac final text)
    (s : State) (k : List Byte) (pieces : List (List Byte)) (hfit : 8 * (64 + pieces.flatten.length) < 2 ^ 64) :
    ∃ t before,
      execAll ([Instr.maSetkey 0 k, Instr.maInit 0 []] ++ pieces.map (Instr.maUpdate 0) ++ [final]) s = .next t ∧
      t.tag = hmac k pieces.flatten ∧ t.tagv = true ∧ t.owner = .none ∧
      t.rspOut = s.rspOut ++ before ++ responseBytes .ok final.opcode (text (hmac k pieces.flatten)) := by
  obtain ⟨t, ht, ho, htag⟩ := execAll_macStream pieces
    (s := ((macKeyEngine k s).loadMacKey (macKeyBlock k)).emit .ok opMaSetkey []) rfl (macKeyBlock_toList k) hfit
  have hrun := (execAll_cons _ (exec_maSetkey k s)).trans ht
  have hend := hfinal t ho
  rw [htag] at hend
  have hrsp : (t.closeMac.emit .ok final.opcode (text (hmac k pieces.flatten))).rspOut
      = t.rspOut ++ responseBytes .ok final.opcode (text (hmac k pieces.flatten)) := by
    rw [State.emit_rspOut, State.closeMac_rspOut]
  obtain ⟨before, hbefore⟩ := exists_before_of_execAll hrun hrsp
  exact ⟨_, before, execAll_concat hrun hend, by simp [htag], by simp, by simp, hbefore⟩

theorem execAll_macCommands {final : Instr} {text : Vector Byte 32 → List Byte} (hfinal : EndsMac final text)
    (s : State) (k : List Byte) {data : List Byte} (hfit : 8 * (64 + data.length) < 2 ^ 64) :
    ∃ t before, execAll (macCommands final k data) s = .next t ∧
      t.rspOut = s.rspOut ++ before ++ responseBytes .ok final.opcode (text (hmac k data)) := by
  obtain ⟨t, before, ht, -, -, -, hrsp⟩ := execAll_macPieces hfinal s k (chunks data) (by rwa [chunks_flatten])
  rw [chunks_flatten] at hrsp
  exact ⟨t, before, ht, hrsp⟩

/-- A key of more than 65535 bytes is replaced by its digest, whichever command ends the MAC (R87, R88). -/
theorem callMac_of_long (s : State) {k : List Byte} (data : List Byte) (hlong : 65535 < k.length)
    (hfit : 8 * k.length < 2 ^ 64) :
    ∃ t, execAll (pseudoSha256 k) s = .next t ∧
      ∀ final, callMac final k data s = callMac final (sha256 k).toList data t := by
  obtain ⟨t, ht, hdigest⟩ := execAll_pseudoSha256_lastDigest s hfit
  refine ⟨t, ht, fun final => ?_⟩
  rw [callMac, if_neg (Nat.not_le_of_lt hlong), callWithDigest_next _ _ _ _ ht, hdigest, callMac,
    if_pos (by simp [Config.maxPayload])]

/-- A call answers the text of HMAC-SHA256 last, for a key of any length (R87, R88, R177). -/
theorem callMac_answers {final : Instr} {text : Vector Byte 32 → List Byte} (hfinal : EndsMac final text) (s : State)
    {k data : List Byte} (hk : 8 * k.length < 2 ^ 64) (hdata : 8 * (64 + data.length) < 2 ^ 64) :
    ∃ t before, callMac final k data s = .next t ∧
      t.rspOut = s.rspOut ++ before ++ responseBytes .ok final.opcode (text (hmac k data)) := by
  by_cases hlong : 65535 < k.length
  · obtain ⟨t, ht, hcall⟩ := callMac_of_long s data hlong hk
    have hdigest : hmac (sha256 k).toList data = hmac k data := by
      rw [hmac, keyBlock_sha256 (Nat.lt_trans (by decide) hlong), hmac]
    obtain ⟨u, before, hu, hrsp⟩ := execAll_macCommands hfinal t (sha256 k).toList hdata
    rw [hdigest, List.append_assoc] at hrsp
    obtain ⟨first, hfirst⟩ := exists_before_of_execAll ht hrsp
    rw [hcall, callMac, if_pos (by simp [Config.maxPayload])]
    exact ⟨u, first ++ before, hu, by simpa using hfirst⟩
  · rw [callMac, if_pos (Nat.le_of_not_lt hlong)]
    exact execAll_macCommands hfinal s k hdata

/-- Settles O55: the answer of a call for either final, and the two shapes of a call. -/
theorem pseudoHmacComputesTheTag : Obligations.PseudoHmacComputesTheTag := by
  intro s k data hk hdata
  refine ⟨?_, ?_, fun hshort => ?_, fun hlong => ?_⟩
  · obtain ⟨t, before, ht, hrsp⟩ := callMac_answers endsMac_maFinal s hk hdata
    rw [responseBytes_eq, Vector.length_toList, ← List.append_assoc] at hrsp
    exact ⟨t, before, ht, hrsp⟩
  · obtain ⟨t, before, ht, hrsp⟩ := callMac_answers endsMac_maFinalx s hk hdata
    rw [responseBytes_eq, hexText_length, Vector.length_toList, ← List.append_assoc] at hrsp
    exact ⟨t, before, ht, hrsp⟩
  · exact ⟨_, _, if_pos hshort, (if_pos hshort).symm, if_pos hshort, (if_pos hshort).symm⟩
  · obtain ⟨t, ht, hcall⟩ := callMac_of_long s data hlong hk
    exact ⟨if_neg (Nat.not_le_of_lt hlong), if_neg (Nat.not_le_of_lt hlong), t, ht, hcall _, hcall _⟩

/-- With a valid tag `MA_VERIFY` answers whether a text is the tag's up to letter case (R175, R176). -/
theorem exec_maVerify {s : State} (text : List Byte) (htag : s.tagv = true) :
    ∃ t, exec (.maVerify 0 text) s = .next t ∧ t.rspOut = s.rspOut
      ++ [0x00, 0x25, 0x00, 0x01, if sameUpToCase text (hexText s.tag.toList) then 0x01 else 0x00] := by
  have hrun := exec_accepted (.maVerify 0 text) s (by simp [checks, firstError_eq_none, htag])
  refine ⟨_, hrun, ?_⟩
  simp [effect, matchesTag_eq_sameUpToCase, responseBytes_eq, Status.code, Instr.opcode, opMaVerify]

/-- Settles O47: the final leaves HMAC-SHA256 in `TAG`, and `MA_VERIFY` compares the text with its text. -/
theorem pseudoHmacVerifyChecksTheTag : Obligations.PseudoHmacVerifyChecksTheTag := by
  intro s k data text _ hkey hk hfit
  obtain ⟨t, ht, ho, htag⟩ := execAll_macStream (chunks data) hkey hk (by rwa [chunks_flatten])
  rw [chunks_flatten] at htag
  have hend := endsMac_maFinal t ho
  rw [htag] at hend
  have hfinal := execAll_concat ht hend
  obtain ⟨u, hu, hrsp⟩ := exec_maVerify (s := t.closeMac.emit .ok (Instr.maFinal 0 []).opcode (hmac k data).toList)
    text (by rw [State.emit_tagv, State.closeMac_tagv])
  rw [State.emit_tag, State.closeMac_tag, htag] at hrsp
  have hcmds : pseudoHmacVerify data text
      = [Instr.maInit 0 []] ++ (chunks data).map (Instr.maUpdate 0) ++ [Instr.maFinal 0 []]
        ++ [Instr.maVerify 0 text] := by
    simp [pseudoHmacVerify]
  obtain ⟨before, hbefore⟩ := exists_before_of_execAll hfinal hrsp
  exact ⟨u, before, hcmds ▸ execAll_concat hfinal hu, hbefore⟩

end Sys2Proof.Machine
end

section
/-! PROOFS. The Hash Engine's commands (40_hash_engine.md R110 to R113): what a command that fails a check answers,
what the counter holds after an absorption, and what a cut leaves of it; then the statements about the three commands
and about a message streamed through them. -/

namespace Sys2Proof.Machine

open Sys2Proof.Reference

/-! ## Rejections, from the error matrix (R201 to R203) -/

/-- A command that the matrix gives an error is rejected with that error's code. -/
theorem exec_of_verdict_eq {i : Instr} {s : State} {e : Status} (h : verdict i s = e) (he : e ≠ .ok) :
    exec i s = .next (rejectedWith e.code i.opcode s) :=
  exec_rejected i s e (by rw [firstError_checks, h, if_neg he])

/-- A wrong `rsv` byte is the first error looked for, in every state and with every payload (R69, R202). -/
theorem exec_of_rsv_ne_zero {i : Instr} (s : State) (hrsv : i.rsv ≠ 0) :
    exec i s = .next (rejectedWith 0x02 i.opcode s) :=
  exec_of_verdict_eq (e := .errFormat) (if_pos hrsv) nofun

/-- A wrong `LEN` is the second, in every state (R67, R202). -/
theorem exec_of_not_legalLen {i : Instr} (s : State) (hrsv : i.rsv = 0) (hlen : i.legalLen = false) :
    exec i s = .next (rejectedWith 0x03 i.opcode s) :=
  exec_of_verdict_eq (e := .errLength) ((if_neg (not_not.mpr hrsv)).trans (if_pos hlen)) nofun

/-! ## The counter and the cut (R14, R107) -/

/-- `BITLEN` counts the bits absorbed as a number, while they fit (R14). -/
theorem heAbsorb_bitLen_toNat {r : HashRegs} {s : List Byte} (hroom : r.bitLen.toNat + 8 * s.length < 2 ^ 64) :
    (heAbsorb r s).bitLen.toNat = r.bitLen.toNat + 8 * s.length := by
  have hbits : (BitVec.ofNat 64 (8 * s.length)).toNat = 8 * s.length := by
    rw [BitVec.toNat_ofNat, Nat.mod_eq_of_lt (Nat.lt_of_add_left_lt hroom)]
  rw [(heAbsorb_spec r s).1, BitVec.toNat_add, hbits, Nat.mod_eq_of_lt hroom]

/-- The loop of R107 does not read `BITLEN`. -/
theorem heAbsorbByte_with_bitLen (r : HashRegs) (l : BitVec 64) (b : Byte) :
    heAbsorbByte { r with bitLen := l } b = { heAbsorbByte r b with bitLen := l } := by
  simp only [heAbsorbByte]
  split <;> rfl

theorem heAbsorbBytes_with_bitLen (r : HashRegs) (l : BitVec 64) (s : List Byte) :
    heAbsorbBytes { r with bitLen := l } s = { heAbsorbBytes r s with bitLen := l } := by
  induction s generalizing r with
  | nil => rfl
  | cons b s ih => rw [heAbsorbBytes_cons, heAbsorbByte_with_bitLen, ih, heAbsorbBytes_cons]

/-- Absorbing two strings is absorbing one after the other, counter and all (R107, R113). -/
theorem heAbsorb_append (r : HashRegs) (p q : List Byte) : heAbsorb (heAbsorb r p) q = heAbsorb r (p ++ q) := by
  have hbits : r.bitLen + BitVec.ofNat 64 (8 * p.length) + BitVec.ofNat 64 (8 * q.length)
      = r.bitLen + BitVec.ofNat 64 (8 * (p ++ q).length) := by
    rw [List.length_append, Nat.mul_add, BitVec.ofNat_add, BitVec.add_assoc]
  simp only [heAbsorb, heAbsorbBytes_with_bitLen, heAbsorbBytes_append, hbits]

/-! ## The statements -/

/-- Settles O20: `SHA_INIT` reads nothing of the state, and its two errors are the header's. -/
theorem shaInitStartsAFreshHash : Obligations.ShaInitStartsAFreshHash := fun s =>
  ⟨exec_shaInit s, fun _ _ hr => exec_of_rsv_ne_zero s hr,
    fun _ hp => exec_of_not_legalLen s rfl (beq_eq_false_iff_ne.mpr hp)⟩

/-- Settles O21: on a buffer that is clear above its fill, `HE_Absorb` is the block-wise absorption. -/
theorem shaUpdateAbsorbsItsPayload : Obligations.ShaUpdateAbsorbsItsPayload := by
  intro s p
  refine ⟨fun ho hroom hclear => ?_, fun r hr => exec_of_rsv_ne_zero s hr, fun ho => ?_, fun ho hfull => ?_⟩
  · rw [← heAbsorb_eq_absorb p hclear]
    exact absorbsFor_shaUpdate p s ho hroom
  · exact exec_of_verdict_eq (e := .errSequence) (if_pos ho) nofun
  · exact exec_of_verdict_eq (e := .errOverflow) ((if_neg (not_not.mpr ho)).trans (if_pos hfull)) nofun

/-- Settles O22: on a buffer that is clear above its fill, the last compressions chain the waiting bytes and their
padding. -/
theorem shaFinalAnswersTheDigest : Obligations.ShaFinalAnswersTheDigest := by
  intro s
  refine ⟨fun ho hclear => ?_, fun r p hr => exec_of_rsv_ne_zero s hr,
    fun p hp => exec_of_not_legalLen s rfl (beq_eq_false_iff_ne.mpr hp), fun ho => ?_⟩
  · rw [← heFinalWords_eq_finishWords hclear]
    rw [exec_shaFinal ho, State.emit, responseBytes_eq, Vector.length_toList]
    rfl
  · exact exec_of_verdict_eq (e := .errSequence) (if_pos ho) nofun

/-- Settles O23: all three updates are accepted, and they leave the engine in one state by `heAbsorb_append`. -/
theorem cuttingAnUpdateDoesNotMatter : Obligations.CuttingAnUpdateDoesNotMatter := by
  intro s p q ho hroom
  have hsum : s.he.bitLen.toNat + 8 * p.length + 8 * q.length < 2 ^ 64 := by
    rwa [List.length_append, Nat.mul_add, ← Nat.add_assoc] at hroom
  have hp : s.he.bitLen.toNat + 8 * p.length < 2 ^ 64 := Nat.lt_of_add_right_lt hsum
  have hq : (s.absorb p).he.bitLen.toNat + 8 * q.length < 2 ^ 64 := by
    rwa [State.absorb_he, heAbsorb_bitLen_toNat hp]
  refine ⟨_, _, _, absorbsFor_shaUpdate p s ho hp, absorbsFor_shaUpdate q _ ho hq,
    absorbsFor_shaUpdate (p ++ q) s ho hroom, ?_⟩
  simp only [State.emit, State.absorb, heAbsorb_append]

/-- Settles O24: the run of any pieces from `SHA_INIT` to `SHA_FINAL`. -/
theorem streamedHashIsSha256 : Obligations.StreamedHashIsSha256 := fun s pieces hfit =>
  ⟨_, execAll_sha256 s pieces hfit, rfl⟩

end Sys2Proof.Machine
end

section
/-! PROOFS. The Stream Cipher's commands (41_stream_cipher.md R140 to R144): what they answer without a loaded key and
nonce, and XOR with the keystream as its own inverse; then the statements about the four commands, and the frames of
the cipher and of `RDSTAT`. -/

namespace Sys2Proof.Machine

open Sys2Proof.Reference

/-! ## Without a key and a nonce (R19, R142, R143) -/

/-- A cipher command whose header is right is rejected for a missing key or nonce, the last error looked for (R202). -/
theorem exec_of_cipher_not_loaded {i : Instr} {s : State} {p : List Byte} (hi : i = .ccBlock 0 p ∨ i = .ccCrypt 0 p)
    (hlen : i.legalLen = true) (h : s.ckeyv = false ∨ s.noncev = false) :
    exec i s = .next (rejectedWith 0x04 i.opcode s) := by
  have hflags : ¬ (s.ckeyv && s.noncev) = true := by simpa [imp_iff_not_or] using h
  refine exec_of_verdict_eq (e := .errNotInitialized) ?_ nofun
  have hheader : i.rsv = 0 := by obtain rfl | rfl := hi <;> rfl
  unfold verdict
  rw [if_neg (not_not.mpr hheader), if_neg (by simp [hlen])]
  obtain rfl | rfl := hi <;> exact if_neg hflags

/-! ## `CC_CRYPT` and its inverse (R143, R144) -/

theorem exec_ccCrypt {s : State} (p : List Byte) (hkey : s.ckeyv = true) (hnonce : s.noncev = true) :
    exec (.ccCrypt 0 p) s = .next (s.emit .ok opCcCrypt (ccCryptBytes s.key s.nonce p)) :=
  exec_accepted (.ccCrypt 0 p) s (by simp [checks, firstError_eq_none, hkey, hnonce])

/-- The second XOR with a keystream byte takes the first away (R144). -/
theorem cryptByte_ccCryptBytes (s : State) {p : List Byte} {i : Nat} (hi : i < p.length) :
    cryptByte s (ccCryptBytes s.key s.nonce p) i = p[i] := by
  rw [ccCryptBytes_eq]
  simp [cryptByte, hi]

theorem ccCryptBytes_ccCryptBytes (s : State) (p : List Byte) :
    ccCryptBytes s.key s.nonce (ccCryptBytes s.key s.nonce p) = p := by
  rw [ccCryptBytes_eq s (ccCryptBytes s.key s.nonce p)]
  refine List.ext_getElem (by simp) fun i _ hi => ?_
  rw [List.getElem_map, List.getElem_range, cryptByte_ccCryptBytes s hi]

/-! ## The statements -/

/-- Settles O30: accepted, the key's words are read as numbers; the two errors are the header's. -/
theorem ccSetkeyLoadsTheKey : Obligations.CcSetkeyLoadsTheKey := by
  intro s p
  refine ⟨fun hp => ?_, fun r hr => exec_of_rsv_ne_zero s hr,
    fun hp => exec_of_not_legalLen s rfl (beq_eq_false_iff_ne.mpr hp)⟩
  rw [exec_accepted _ _ (by simp [checks, firstError_eq_none, hp]), effect, keyOperand_eq, State.emit,
    responseBytes_nil]
  rfl

/-- Settles O31: accepted, the nonce's words are read as numbers; the two errors are the header's. -/
theorem ccSetnonceLoadsTheNonce : Obligations.CcSetnonceLoadsTheNonce := by
  intro s p
  refine ⟨fun hp => ?_, fun r hr => exec_of_rsv_ne_zero s hr,
    fun hp => exec_of_not_legalLen s rfl (beq_eq_false_iff_ne.mpr hp)⟩
  rw [exec_accepted _ _ (by simp [checks, firstError_eq_none, hp]), effect, nonceOperand_eq, State.emit,
    responseBytes_nil]
  rfl

/-- Settles O32: accepted, the counter is read as a number; the errors are the header's and that of missing
registers. -/
theorem ccBlockAnswersTheKeystreamBlock : Obligations.CcBlockAnswersTheKeystreamBlock := by
  intro s p
  refine ⟨fun hp hkey hnonce => ?_, fun r hr => exec_of_rsv_ne_zero s hr,
    fun hp => exec_of_not_legalLen s rfl (beq_eq_false_iff_ne.mpr hp),
    fun hp h => exec_of_cipher_not_loaded (.inl rfl) (beq_iff_eq.mpr hp) h⟩
  rw [exec_accepted _ _ (by simp [checks, firstError_eq_none, hp, hkey, hnonce]), effect, counterOperand,
    payloadWord_eq_le32At, State.emit, responseBytes_eq, Vector.length_toList]
  rfl

/-- Settles O33: accepted, the blocks XORed are position-wise by `ccCryptBytes_eq`; every `LEN` is legal. -/
theorem ccCryptIsPositionWise : Obligations.CcCryptIsPositionWise := by
  intro s p _
  refine ⟨fun hkey hnonce => ?_, fun r hr => exec_of_rsv_ne_zero s hr,
    fun h => exec_of_cipher_not_loaded (.inr rfl) rfl h⟩
  rw [exec_ccCrypt p hkey hnonce, State.emit, responseBytes_eq, ccCryptBytes_length, ccCryptBytes_eq]
  rfl

/-- Settles O34: the first command leaves the key and the nonce, and the second undoes its XOR. -/
theorem ccCryptRoundTrips : Obligations.CcCryptRoundTrips := by
  intro s p _ hkey hnonce
  have hlen := ccCryptBytes_length s.key s.nonce p
  refine ⟨_, _, _, exec_ccCrypt p hkey hnonce, hlen, ?_, exec_ccCrypt _ hkey hnonce, ?_⟩
  · rw [State.emit_rspOut, responseBytes_eq, hlen]
    rfl
  · rw [State.emit_rspOut, State.emit_key, State.emit_nonce, ccCryptBytes_ccCryptBytes, responseBytes_eq]
    rfl

/-- Settles O49: a rejection changes `RSP_OUT` alone, and the two effects are their record updates. -/
theorem cipherLoadsFrame : Obligations.CipherLoadsFrame := by
  intro r p s t u ht hu
  refine ⟨?_, exec_rspOut_grows ht, ?_, exec_rspOut_grows hu⟩
  · obtain ⟨_, -, rfl⟩ | ⟨-, rfl⟩ := exec_next_cases ht <;> rfl
  · obtain ⟨_, -, rfl⟩ | ⟨-, rfl⟩ := exec_next_cases hu <;> rfl

/-- Settles O50: the effect of a reading command is the state before, so either response is all that is new. -/
theorem readingCommandsFrame : Obligations.ReadingCommandsFrame := by
  intro i r p s t hi h
  have heff : (effect i s).1 = s := by obtain rfl | rfl | rfl := hi <;> rfl
  refine ⟨?_, exec_rspOut_grows h⟩
  obtain ⟨_, -, rfl⟩ | ⟨-, rfl⟩ := exec_next_cases h
  · rfl
  · rw [heff]
    rfl

end Sys2Proof.Machine
end

section
/-! PROOFS. The Message Authenticator's commands (42_authenticator.md R170 to R177): the key block, the inner pad and
the outer hash as values, the characters of a tag's text, and folding as a number; then the statements about the six
commands, a MAC streamed through them, and its text verified. -/

namespace Sys2Proof.Machine

open Sys2Proof.Reference

/-! ## The key block and the two pads (R161, R171, R173) -/

/-- `MA_SETKEY`'s key block read byte by byte from that of R161. -/
theorem macKeyBlock_eq_ofFn (k : List Byte) : macKeyBlock k = Vector.ofFn fun i => (keyBlock k).getD i.val 0 := by
  ext1 i hi
  simp [← macKeyBlock_toList]

/-- A key of at most 64 bytes leaves the engine alone unless a MAC is open, which it gives up (R170, R250, R251). -/
theorem macKeyEngine_of_short {k : List Byte} (s : State) (hk : k.length ≤ 64) :
    macKeyEngine k s = s.setHash (if s.owner = .mac then released s.he.h else s.he)
      (if s.owner = .mac then .none else s.owner) := by
  obtain ⟨hlong, -⟩ | ⟨-, ho, he⟩ | ⟨-, ho, he⟩ := macKeyEngine_cases k s
  · exact absurd hk (Nat.not_le_of_lt hlong)
  · rw [he, if_pos ho, if_pos ho]
    rfl
  · rw [he, if_neg ho, if_neg ho]
    rfl

/-- A pad is one block, the key block XORed position-wise (R161). -/
theorem blockAt_padBlock (k0 : Vector Byte 64) (c : Byte) :
    blockAt (padBlock k0 c) 0 = Vector.ofFn fun i => k0[i] ^^^ c := by
  ext1 i hi
  simp [blockAt_getElem, padBlock, hi]

/-- After the inner pad the engine has compressed one block and holds no byte (R171). -/
theorem heAbsorb_padBlock (k0 : Vector Byte 64) (c : Byte) :
    heAbsorb heInit (padBlock k0 c)
      = { h := compress sha256IV (Vector.ofFn fun i => k0[i] ^^^ c)
          buf := zeroBlock
          bufLen := 0
          bitLen := 512 } := by
  have hlen := padBlock_length k0 c
  have hchain : chain sha256IV (padBlock k0 c) = compress sha256IV (blockAt (padBlock k0 c) 0) :=
    chain_append_block sha256IV (p := []) (by simp)
  have hempty : blockAt (padBlock k0 c) 1 = zeroBlock := blockAt_of_le (by omega)
  rw [heAbsorb_heInit, hashing, engineAfter, hchain, blockAt_padBlock]
  simp only [hlen, hempty]
  rfl

/-- The end of a MAC finishes an engine that has taken the outer pad and the inner digest since `HE_Init` (R173). -/
theorem macFinish_of_bufClear (k0 : Vector Byte 64) {r : HashRegs} (hclear : r.bufClear) :
    macFinish k0 r = heFinish (hashing (padBlock k0 Config.outerPad ++ (digestBytes (finishWords r)).toList)) := by
  rw [macFinish_eq, heAbsorb_heInit, heAbsorb_hashing, heFinish_digest, heFinalWords_eq_finishWords hclear]

/-! ## The text of a tag (R163, R164, R175) -/

theorem highNibble_eq (b : Byte) : b >>> 4 = BitVec.ofNat 8 (b.toNat / 16) := by
  apply BitVec.eq_of_toNat_eq
  rw [BitVec.toNat_ushiftRight, Nat.shiftRight_eq_div_pow, BitVec.toNat_ofNat]
  have := b.isLt
  omega

theorem lowNibble_eq (b : Byte) : b &&& 0x0F = BitVec.ofNat 8 (b.toNat % 16) := by
  apply BitVec.eq_of_toNat_eq
  have hmask : b.toNat &&& 15 = b.toNat % 16 := Nat.and_two_pow_sub_one_eq_mod b.toNat 4
  rw [BitVec.toNat_and, BitVec.toNat_ofNat, Nat.mod_eq_of_lt (by omega)]
  exact hmask

/-- Byte `i` of a string gives characters `2i` and `2i + 1` of its text, the high nibble first (R163). -/
theorem hexText_getElem? (s : List Byte) (i : Nat) :
    (hexText s)[2 * i]? = s[i]?.map (fun b => hexDigit (BitVec.ofNat 8 (b.toNat / 16))) ∧
      (hexText s)[2 * i + 1]? = s[i]?.map (fun b => hexDigit (BitVec.ofNat 8 (b.toNat % 16))) := by
  induction s generalizing i with
  | nil => exact ⟨rfl, rfl⟩
  | cons b s ih =>
    have hcons : hexText (b :: s) = hexDigit (b >>> 4) :: hexDigit (b &&& 0x0F) :: hexText s := rfl
    rw [hcons, highNibble_eq, lowNibble_eq]
    cases i with
    | zero => exact ⟨rfl, rfl⟩
    | succ i => exact ih i

/-- Folding on the numbers of the characters (R164). -/
theorem foldCase_toNat (b : Byte) :
    (foldCase b).toNat = if 0x41 ≤ b.toNat ∧ b.toNat ≤ 0x5A then b.toNat + 0x20 else b.toNat := by
  unfold foldCase
  split_ifs <;> bv_omega

/-- A received text matches when it has 64 characters and each folds to the tag's at its position (R175). -/
theorem matchesTag_iff (p : List Byte) (tag : Vector Byte 32) :
    matchesTag p tag = true ↔ p.length = 64 ∧ ∀ i < 64, ∀ b x, p[i]? = some b → (hexText tag.toList)[i]? = some x →
      (if 0x41 ≤ b.toNat ∧ b.toNat ≤ 0x5A then b.toNat + 0x20 else b.toNat) = x.toNat := by
  have hlen : (hexText tag.toList).length = 64 := by simp
  simp only [matchesTag, Bool.and_eq_true, beq_iff_eq, ← foldCase_toNat]
  refine and_congr_right fun hp =>
    ⟨fun h i _ b x hb hx => ?_, fun h => List.ext_getElem (by simp [hp]) fun i hi hx => ?_⟩
  · rw [← h, List.getElem?_map, hb] at hx
    cases hx
    rfl
  · have hip : i < p.length := by simpa using hi
    rw [List.getElem_map]
    exact BitVec.eq_of_toNat_eq
      (h i (hp ▸ hip) _ _ (List.getElem?_eq_getElem hip) (List.getElem?_eq_getElem hx))

/-! ## The statements -/

/-- Settles O37: the key block is the key and its zeros, and the engine is that of `macKeyEngine_of_short`. -/
theorem maSetkeyLoadsAShortKey : Obligations.MaSetkeyLoadsAShortKey := by
  intro s p
  refine ⟨fun hp => ?_, fun r hr => exec_of_rsv_ne_zero s hr⟩
  have hblock : keyBlock p = p ++ List.replicate (64 - p.length) 0 := if_neg (Nat.not_lt_of_le hp)
  rw [exec_maSetkey, macKeyBlock_eq_ofFn, hblock, macKeyEngine_of_short s hp, State.emit, responseBytes_nil]
  rfl

/-- Settles O38: a longer key is hashed on the engine, and the digest is its key block but for the zeros. -/
theorem maSetkeyHashesALongKey : Obligations.MaSetkeyHashesALongKey := by
  intro s p hlong _
  have hblock : keyBlock p = (sha256 p).toList ++ List.replicate 32 0 := if_pos hlong
  have hengine : macKeyEngine p s = s.setHash (heFinish (heAbsorb heInit p)).2 .none := if_pos hlong
  rw [exec_maSetkey, macKeyBlock_eq_ofFn, hblock, hengine, heAbsorb_heInit, heFinish_hashing]
  rfl

/-- Settles O39: the inner pad is one whole block; the errors are the header's and that of a missing key. -/
theorem maInitAbsorbsTheInnerPad : Obligations.MaInitAbsorbsTheInnerPad := by
  intro s
  refine ⟨fun hkey => ?_, fun r p hr => exec_of_rsv_ne_zero s hr,
    fun p hp => exec_of_not_legalLen s rfl (beq_eq_false_iff_ne.mpr hp), fun hkey => ?_⟩
  · rw [exec_maInit hkey, State.openMac, heAbsorb_padBlock]
    rfl
  · exact exec_of_verdict_eq (e := .errNotInitialized) (if_neg (Bool.eq_false_iff.mp hkey)) nofun

/-- Settles O40: on a buffer that is clear above its fill, `HE_Absorb` is the block-wise absorption. -/
theorem maUpdateAbsorbsItsPayload : Obligations.MaUpdateAbsorbsItsPayload := by
  intro s p
  refine ⟨fun ho hroom hclear => ?_, fun r hr => exec_of_rsv_ne_zero s hr, fun ho => ?_, fun ho hfull => ?_⟩
  · rw [← heAbsorb_eq_absorb p hclear]
    exact absorbsFor_maUpdate p s ho hroom
  · exact exec_of_verdict_eq (e := .errSequence) (if_pos ho) nofun
  · exact exec_of_verdict_eq (e := .errOverflow) ((if_neg (not_not.mpr ho)).trans (if_pos hfull)) nofun

/-- Settles O41: the tag and the released engine are those of the outer hash by `macFinish_of_bufClear`. -/
theorem maFinalAnswersTheTag : Obligations.MaFinalAnswersTheTag := by
  intro s
  refine ⟨fun ho hclear => ?_, fun r p hr => exec_of_rsv_ne_zero s hr,
    fun p hp => exec_of_not_legalLen s rfl (beq_eq_false_iff_ne.mpr hp), fun ho => ?_⟩
  · rw [endsMac_maFinal s ho, State.closeMac, macFinish_of_bufClear s.k0 hclear, heFinish_hashing, State.emit,
      responseBytes_eq, Vector.length_toList]
    rfl
  · exact exec_of_verdict_eq (e := .errSequence) (if_pos ho) nofun

/-- Settles O42: both finals close the MAC alike; the characters of the text are those of `hexText`. -/
theorem maFinalxAnswersTheTagAsText : Obligations.MaFinalxAnswersTheTagAsText := by
  intro s
  refine ⟨fun ho => ?_, fun r p hr => exec_of_rsv_ne_zero s hr,
    fun p hp => exec_of_not_legalLen s rfl (beq_eq_false_iff_ne.mpr hp), fun ho => ?_⟩
  · refine ⟨_, _, hexText (macFinish s.k0 s.he).1.toList, endsMac_maFinalx s ho, endsMac_maFinal s ho, ?_,
      ?_, hexText_isLowerHex _, fun i => ?_⟩
    · simp only [State.emit, responseBytes_eq, hexText_length, Vector.length_toList]
      rfl
    · rw [hexText_length, Vector.length_toList]
    · obtain ⟨hhigh, hlow⟩ := hexText_getElem? (macFinish s.k0 s.he).1.toList i
      rw [hhigh, hlow, State.emit_tag, State.closeMac_tag]
      simp
  · exact exec_of_verdict_eq (e := .errSequence) (if_pos ho) nofun

/-- Settles O43: accepted, the verdict is `matchesTag`; the errors are the header's and that of a missing tag. -/
theorem maVerifyComparesTheText : Obligations.MaVerifyComparesTheText := by
  intro s p
  refine ⟨fun htag => ⟨matchesTag p s.tag, ?_, matchesTag_iff p s.tag⟩, fun r hr => exec_of_rsv_ne_zero s hr,
    fun htag => ?_⟩
  · rw [exec_accepted _ _ (by simp [checks, firstError_eq_none, htag]), effect]
    rw [State.emit, responseBytes_eq, List.length_singleton]
    rfl
  · exact exec_of_verdict_eq (e := .errSequence) (if_neg (Bool.eq_false_iff.mp htag)) nofun

/-- Settles O44: one MAC in any pieces, ended by `MA_FINAL`. -/
theorem macSequenceComputesHmac : Obligations.MacSequenceComputesHmac := by
  intro s k pieces _ hfit
  obtain ⟨t, before, ht, htag, htagv, ho, hrsp⟩ := execAll_macPieces endsMac_maFinal s k pieces hfit
  rw [responseBytes_eq, Vector.length_toList, ← List.append_assoc] at hrsp
  exact ⟨t, before, ht, htag, htagv, ho, hrsp⟩

/-- Settles O45: the text answered is that of the tag kept, with which `MA_VERIFY` compares up to letter case. -/
theorem signedTextVerifies : Obligations.SignedTextVerifies := by
  intro s ho
  refine ⟨_, hexText (macFinish s.k0 s.he).1.toList, endsMac_maFinalx s ho, ?_, fun p => ?_⟩
  · rw [State.emit_rspOut, State.closeMac_rspOut, responseBytes_eq, hexText_length, Vector.length_toList]
    rfl
  · obtain ⟨u, hu, hrsp⟩ := exec_maVerify (s := s.closeMac.emit .ok (Instr.maFinalx 0 []).opcode
      (hexText (macFinish s.k0 s.he).1.toList)) p
      (by rw [State.emit_tagv, State.closeMac_tagv])
    rw [State.emit_tag, State.closeMac_tag] at hrsp
    exact ⟨u, hu, hrsp⟩

/-- Settles O46: a long key and its digest have one key block (`keyBlock_sha256`). -/
theorem longKeyLoadsAsItsDigest : Obligations.LongKeyLoadsAsItsDigest := by
  intro s k hlong _
  refine ⟨_, _, exec_maSetkey k s, exec_maSetkey (sha256 k).toList s, ?_⟩
  rw [State.emit_k0, State.emit_k0, State.loadMacKey_k0, State.loadMacKey_k0, macKeyBlock_eq_ofFn,
    macKeyBlock_eq_ofFn, keyBlock_sha256 hlong]

end Sys2Proof.Machine
end

section
/-! PROOFS. The system command (43_system.md R190). -/

namespace Sys2Proof.Machine

/-- What `RDSTAT` answers in every state; its effect is the state before (R190). -/
theorem exec_rdstat (s : State) : exec (.rdstat 0 []) s = .next (s.emit .ok opRdstat [statusByte s]) :=
  exec_accepted (.rdstat 0 []) s (by simp [checks, firstError_eq_none])

/-- Settles O19: the two facts about the byte are those of its flags, and the two errors are the header's. -/
theorem rdstatAnswersStatus : Obligations.RdstatAnswersStatus := by
  intro s
  obtain ⟨howner, -, -, -, -, -, hbit7⟩ := statusMirrorsTheFlags s
  refine ⟨?_, hbit7, ?_, fun _ _ hr => exec_of_rsv_ne_zero s hr,
    fun _ hp => exec_of_not_legalLen s rfl (beq_eq_false_iff_ne.mpr hp)⟩
  · rw [exec_rdstat, State.emit, responseBytes_eq, List.length_singleton]
    rfl
  · rw [howner]
    cases s.owner <;> decide

end Sys2Proof.Machine
end

section
/-! PROOFS. Errors and the stream of responses (60_exceptions.md R200 to R205, R216): what a frame leaves of the
stream, what a rejection is, and what a run does with whole commands; then the statements about the error matrix,
rejection and streams. -/

namespace Sys2Proof

/-! ## What follows the frame at the front (R62) -/

/-- What follows a frame is the stream without the frame's `4 + LEN` bytes. -/
theorem drop_of_frameCommand {bs : List Byte} {f : Frame} (h : frameCommand bs = some f) :
    bs.drop (4 + f.payload.length) = f.rest := by
  obtain ⟨b2, b3, hbs, -⟩ := frameCommand_eq_some bs f h
  rw [hbs, Nat.add_comm]
  exact List.drop_left

/-- What follows an illegal opcode's command is what follows the frame at the front (R62, R68). -/
theorem decode_eq_illegalOpcode {bs rest : List Byte} {op : Byte} (h : decode bs = .illegalOpcode op rest) :
    ∃ f, frameCommand bs = some f ∧ f.rest = rest := by
  cases hf : frameCommand bs with
  | none => simp [decode, hf] at h
  | some f =>
    cases hsel : selectCommand f.opcode f.rsv f.payload with
    | none =>
      obtain ⟨-, hrest⟩ : f.opcode = op ∧ f.rest = rest := by simpa [decode, hf, hsel] using h
      exact ⟨f, rfl, hrest⟩
    | some i => simp [decode, hf, hsel] at h

namespace Machine

open Sys2Proof.Reference

/-! ## The error matrix and rejection (R201 to R203) -/

/-- The error matrix does not read `CMD_IN`. -/
@[simp] theorem verdict_takeCommand (i : Instr) (rest : List Byte) (s : State) :
    verdict i (s.takeCommand rest) = verdict i s := by
  cases i <;> rfl

/-- Settles O14: the matrix's `ok` is the accepted case with its effect's payload; any other verdict is a rejection,
which has no payload. -/
theorem statusFollowsTheErrorMatrix : Obligations.StatusFollowsTheErrorMatrix := by
  intro i s
  by_cases hok : verdict i s = .ok
  · rw [if_pos hok, hok]
    refine ⟨_, _, exec_accepted i s (accepted_iff.mpr hok), effect_payload_length i s, ?_⟩
    rw [State.emit_rspOut, effect_rspOut, responseBytes_eq]
  · exact ⟨_, [], exec_of_verdict_eq rfl hok, (if_neg hok).symm, rfl⟩

/-- Settles O15: the step rejects in what follows the frame, which is the stream without the frame's bytes. -/
theorem rejectionChangesNoRegister : Obligations.RejectionChangesNoRegister := by
  intro s rest
  constructor
  · intro i hdec herr
    obtain ⟨f, hf, hsel, rfl⟩ := decode_eq_command hdec
    obtain ⟨-, -, hp⟩ := selectCommand_eq_some _ _ _ _ hsel
    rw [Instr.len, hp, drop_of_frameCommand hf, step_of_command hdec]
    exact exec_of_verdict_eq (verdict_takeCommand i f.rest s) herr
  · intro op hdec
    obtain ⟨f, hf, rfl⟩ := decode_eq_illegalOpcode hdec
    obtain ⟨b2, b3, hin, hlen⟩ := frameCommand_eq_some _ f hf
    refine ⟨f.payload.length, ?_, by rw [hin]; exact hlen, ?_⟩
    · rw [hin]
      simp only [List.length_cons, List.length_append]
      omega
    · rw [drop_of_frameCommand hf]
      exact step_of_illegalOpcode hdec

/-! ## A stream of whole commands (R204, R216, R260) -/

/-- A run goes on from what its first step answers. -/
theorem run_succ {M : Host.Core} {s t : M.State} (n : Nat) (h : M.step s = .next t) : M.run (n + 1) s = M.run n t := by
  simp only [Host.Core.run, h]

/-- The bytes of one whole command, valid or not: a header and as many bytes as it announces (R61). -/
def IsWholeCommand (c : List Byte) : Prop :=
  ∃ b0 b1 b2 b3 p, c = b0 :: b1 :: b2 :: b3 :: p ∧ p.length = b2.toNat * 256 + b3.toNat

/-- A response answers a command if it has a whole header that echoes the command's opcode (R64). -/
def Answers (c r : List Byte) : Prop := 4 ≤ r.length ∧ r.tail.head? = c.head?

/-- One step takes one whole command, whatever it is, and answers it (R62). -/
theorem step_answers_wholeCommand {s : State} {c rest : List Byte} (hc : IsWholeCommand c)
    (hin : s.cmdIn = c ++ rest) :
    ∃ t r, step s = .next t ∧ t.cmdIn = rest ∧ t.rspOut = s.rspOut ++ r ∧ Answers c r := by
  obtain ⟨b0, b1, b2, b3, p, rfl, hlen⟩ := hc
  obtain ⟨t, st, payload, hstep, hrest, -, -, hrsp⟩ :=
    stepConsumesOneCommandWhateverItsHeader s b0 b1 b2 b3 p rest hin hlen
  exact ⟨t, _, hstep, hrest, hrsp, by simp, rfl⟩

/-- Settles O12, by induction over the commands: the first step answers the first of them and leaves the others. -/
theorem everyStreamOfCommandsIsAnswered : Obligations.EveryStreamOfCommandsIsAnswered := by
  intro s cmds hwhole hin
  induction cmds generalizing s with
  | nil => exact ⟨s, [], rfl, by rw [State.runOver, hin]; rfl, (List.append_nil _).symm, rfl, .nil⟩
  | cons c cmds ih =>
    obtain ⟨t, r, hstep, hrest, hrsp, hr⟩ := step_answers_wholeCommand (hwhole c List.mem_cons_self) hin
    obtain ⟨u, rsps, hrun, hover, hrsps, hn, hall⟩ := ih t (fun d hd => hwhole d (List.mem_cons_of_mem c hd)) hrest
    refine ⟨u, r :: rsps, (run_succ (M := core) _ hstep).trans hrun, hover, ?_, congrArg (· + 1) hn, .cons hr hall⟩
    rw [hrsps, hrsp, List.append_assoc, List.flatten_cons]

end Machine

end Sys2Proof
end

section
/-! PROOFS. Reset and hazards (70_reset_and_hazards.md R231, R250, R251, R257): the reset values, what a stream that no
longer holds the engine gets, who holds it after a command, and which commands leave it alone. -/

namespace Sys2Proof.Machine

open Sys2Proof.Reference

/-! ## Reset (R231, R232) -/

/-- Settles O1: the reset state does not depend on the state before, and it is built of zeros. -/
theorem resetLeavesTheTableOfResetValues : Obligations.ResetLeavesTheTableOfResetValues := fun _ =>
  ⟨State.reset, rfl, rfl, fun i => Vector.getElem_replicate i.isLt, fun i => Vector.getElem_replicate i.isLt, rfl, rfl,
    rfl, fun i => Vector.getElem_replicate i.isLt, fun i => Vector.getElem_replicate i.isLt, rfl,
    rfl, fun i => Vector.getElem_replicate i.isLt, rfl, fun i => Vector.getElem_replicate i.isLt,
    rfl, rfl, rfl, rfl, rfl⟩

/-! ## A stream without the engine (R111, R112, R172, R173) -/

/-- A hash that does not hold the engine can be neither continued nor ended (R111, R112). -/
theorem hashStream_rejected {t : State} (ho : t.owner ≠ .hash) :
    (∀ p, exec (.shaUpdate 0 p) t = .next (rejectedWith 0x05 0x02 t)) ∧
      exec (.shaFinal 0 []) t = .next (rejectedWith 0x05 0x03 t) :=
  ⟨fun _ => exec_of_verdict_eq (e := .errSequence) (if_pos ho) nofun,
    exec_of_verdict_eq (e := .errSequence) (if_pos ho) nofun⟩

/-- A MAC that does not hold the engine can be neither continued nor ended (R172 to R174). -/
theorem macStream_rejected {t : State} (ho : t.owner ≠ .mac) :
    (∀ p, exec (.maUpdate 0 p) t = .next (rejectedWith 0x05 0x22 t)) ∧
      exec (.maFinal 0 []) t = .next (rejectedWith 0x05 0x23 t) ∧
      exec (.maFinalx 0 []) t = .next (rejectedWith 0x05 0x24 t) :=
  ⟨fun _ => exec_of_verdict_eq (e := .errSequence) (if_pos ho) nofun,
    exec_of_verdict_eq (e := .errSequence) (if_pos ho) nofun,
    exec_of_verdict_eq (e := .errSequence) (if_pos ho) nofun⟩

/-! ## Who holds the engine after a command (R15, R28) -/

/-- An accepted command leaves `OWNER` as its row of the flag table says. -/
theorem exec_owner_of_accepted {i : Instr} {s : State} (h : verdict i s = .ok) :
    ∃ t, exec i s = .next t ∧ t.owner = (flagsAfter i s).owner := by
  obtain ⟨t, ht, hflags⟩ := flagsFollowTheFlagTable i s
  rw [if_pos h] at hflags
  exact ⟨t, ht, congrArg Flags.owner hflags⟩

/-- A long MAC key is hashed on the engine, which no one holds afterwards (R170). -/
theorem flagsAfter_maSetkey_owner_of_long (r : Byte) {k : List Byte} (s : State) (hlong : 64 < k.length) :
    (flagsAfter (.maSetkey r k) s).owner = .none :=
  if_pos hlong

/-- A MAC key of any length takes the engine from an open MAC (R170, R251). -/
theorem flagsAfter_maSetkey_owner_of_mac (r : Byte) (k : List Byte) {s : State} (ho : s.owner = .mac) :
    (flagsAfter (.maSetkey r k) s).owner = .none := by
  simp [flagsAfter, ho]

/-- Settles O26: `MA_INIT` gives the engine to the MAC and a long `MA_SETKEY` to no one; the hash has lost it. -/
theorem macCommandsDestroyAHash : Obligations.MacCommandsDestroyAHash := by
  intro i s hok _ hi
  obtain ⟨t, ht, ho⟩ := exec_owner_of_accepted hok
  have hlost : t.owner ≠ .hash := by
    obtain rfl | ⟨k, rfl, hlong⟩ := hi
    · exact ho ▸ nofun
    · exact (ho.trans (flagsAfter_maSetkey_owner_of_long 0 s hlong)) ▸ nofun
  exact ⟨t, ht, hlost, hashStream_rejected hlost⟩

/-- Settles O27: `SHA_INIT` gives the engine to the hash and `MA_SETKEY` to no one; what `MA_INIT` leaves on the engine
is the inner pad of `K0` on a fresh one. -/
theorem commandsDestroyAMac : Obligations.CommandsDestroyAMac := by
  refine fun s hmac hkey => ⟨fun i hi => ?_, fun s' hk0 hkey' => ?_⟩
  · have hok : verdict i s = .ok := by obtain rfl | ⟨k, rfl⟩ := hi <;> rfl
    obtain ⟨t, ht, ho⟩ := exec_owner_of_accepted hok
    have hlost : t.owner ≠ .mac := by
      obtain rfl | ⟨k, rfl⟩ := hi
      · exact ho ▸ nofun
      · exact (ho.trans (flagsAfter_maSetkey_owner_of_mac 0 k hmac)) ▸ nofun
    exact ⟨t, ht, hlost, macStream_rejected hlost⟩
  · refine ⟨_, _, exec_maInit hkey, exec_maInit hkey', ?_, rfl⟩
    rw [State.emit_he, State.emit_he, State.openMac_he, State.openMac_he, hk0]

/-- A command that ends a MAC gives up the engine and keeps the key (R173, R174). -/
theorem EndsMac.releases {final : Instr} {text : Vector Byte 32 → List Byte} (hfinal : EndsMac final text)
    {s : State} (ho : s.owner = .mac) :
    ∃ t, exec final s = .next t ∧ t.owner = .none ∧ t.k0 = s.k0 ∧ t.mkeyv = s.mkeyv :=
  ⟨_, hfinal s ho, State.closeMac_owner s, State.closeMac_k0 s, State.closeMac_mkeyv s⟩

/-- Settles O28: each final leaves the engine to no one, so its stream is rejected. -/
theorem finalsEndTheStream : Obligations.FinalsEndTheStream := by
  refine fun s => ⟨fun ho => ⟨_, exec_shaFinal ho, hashStream_rejected nofun⟩, fun ho i hi => ?_⟩
  obtain ⟨t, ht, hnone, hk0, hkey⟩ : ∃ t, exec i s = .next t ∧ t.owner = .none ∧ t.k0 = s.k0 ∧ t.mkeyv = s.mkeyv := by
    obtain rfl | rfl := hi
    · exact endsMac_maFinal.releases ho
    · exact endsMac_maFinalx.releases ho
  exact ⟨t, ht, hk0, hkey, macStream_rejected (hnone ▸ nofun)⟩

/-! ## Commands that leave the engine alone (R250, R251) -/

/-- A short MAC key is padded off the engine, which stays as it is unless a MAC is open (R170, R250). -/
theorem macKeyEngine_of_short_of_not_mac {k : List Byte} {s : State} (hk : k.length ≤ 64) (ho : s.owner ≠ .mac) :
    macKeyEngine k s = s :=
  (if_neg (Nat.not_lt_of_le hk)).trans (if_neg ho)

/-- Settles O29: a response writes neither the engine nor `OWNER`, and no effect of these commands does. -/
theorem harmlessCommandsKeepTheEngine : Obligations.HarmlessCommandsKeepTheEngine := by
  intro s i r p hi
  obtain ⟨t, ht⟩ := exec_next i s
  refine ⟨t, ht, exec_keeps (P := fun u => u.he = s.he ∧ u.owner = s.owner) (fun _ _ _ _ h => h) ⟨rfl, rfl⟩
    (fun _ => ?_) ht⟩
  obtain rfl | rfl | rfl | rfl | rfl | rfl | ⟨rfl, hp, ho⟩ := hi
  iterate 6 · exact ⟨rfl, rfl⟩
  · simp [effect, macKeyEngine_of_short_of_not_mac hp ho]

end Sys2Proof.Machine
end
